-- ==== Sys2Proof/Word.lean ====
section
/-! DEFINITION. The value types of rule R7 (spec/00_scope.md): Word, Cell and RegIdx. -/

namespace Sys2Proof

/-- A Word: an integer in 0..32767, 15 bits unsigned (R5 `WORD_BITS`, R7): the type of every register, stack entry,
resolved operand and ALU result. -/
abbrev Word := BitVec 15

/-- A Cell: an integer in 0..65535, the 16-bit storage of one memory location (R5 `CELL_BITS`, R7, D1). -/
abbrev Cell := BitVec 16

/-- A register index 0..7 (R5 `NUM_REGS`, R7, R21). -/
abbrev RegIdx := Fin 8

end Sys2Proof
end

