-- ==== Sys2Proof/Syntax.lean ====
section
/-! DEFINITION. The instructions as syntax: one constructor of `Instr` per row of the opcode map R76
(spec/30_encoding.md, spec/opcode_table.json), with operands in the table's order. -/

namespace Sys2Proof

/-- A decoded operand cell (R73): a literal Word or a register reference. The third class of R73, the invalid cells
32776..65535, is no operand: the decoder rejects it. -/
inductive Operand where
  | lit (v : Word)
  | reg (r : RegIdx)
  deriving DecidableEq, Repr

/-- The 22 mnemonics of R76. `inp` is IN (the bare word is a keyword of Lean). -/
inductive Mnemonic where
  | halt | set | push | pop | eq | gt | jmp | jt | jf | add | mult | mod | and | or | not | rmem | wmem | call | ret
  | out | inp | noop
  deriving DecidableEq, Repr

/-- The instructions of R76. A write-target position `dst` is an operand like any other: a literal may stand there in a
program, and R74 makes it an error (`Instr.wf`, `InvalidDestination`). -/
inductive Instr where
  | halt
  | set (dst a : Operand)
  | push (a : Operand)
  | pop (dst : Operand)
  | eq (dst a b : Operand)
  | gt (dst a b : Operand)
  | jmp (a : Operand)
  | jt (a b : Operand)
  | jf (a b : Operand)
  | add (dst a b : Operand)
  | mult (dst a b : Operand)
  | mod (dst a b : Operand)
  | and (dst a b : Operand)
  | or (dst a b : Operand)
  | not (dst a : Operand)
  | rmem (dst b : Operand)
  | wmem (a b : Operand)
  | call (a : Operand)
  | ret
  | out (a : Operand)
  | inp (dst : Operand)
  | noop
  deriving DecidableEq, Repr

/-- The row of R76 an instruction belongs to. -/
def Instr.mnemonic : Instr → Mnemonic
  | .halt => .halt
  | .set _ _ => .set
  | .push _ => .push
  | .pop _ => .pop
  | .eq _ _ _ => .eq
  | .gt _ _ _ => .gt
  | .jmp _ => .jmp
  | .jt _ _ => .jt
  | .jf _ _ => .jf
  | .add _ _ _ => .add
  | .mult _ _ _ => .mult
  | .mod _ _ _ => .mod
  | .and _ _ _ => .and
  | .or _ _ _ => .or
  | .not _ _ => .not
  | .rmem _ _ => .rmem
  | .wmem _ _ => .wmem
  | .call _ => .call
  | .ret => .ret
  | .out _ => .out
  | .inp _ => .inp
  | .noop => .noop

/-- The operands in the order of their cells (R76). -/
def Instr.operands : Instr → List Operand
  | .halt => []
  | .set dst a => [dst, a]
  | .push a => [a]
  | .pop dst => [dst]
  | .eq dst a b => [dst, a, b]
  | .gt dst a b => [dst, a, b]
  | .jmp a => [a]
  | .jt a b => [a, b]
  | .jf a b => [a, b]
  | .add dst a b => [dst, a, b]
  | .mult dst a b => [dst, a, b]
  | .mod dst a b => [dst, a, b]
  | .and dst a b => [dst, a, b]
  | .or dst a b => [dst, a, b]
  | .not dst a => [dst, a]
  | .rmem dst b => [dst, b]
  | .wmem a b => [a, b]
  | .call a => [a]
  | .ret => []
  | .out a => [a]
  | .inp dst => [dst]
  | .noop => []

/-- The write-target operand, for the twelve instructions that have one (R23, R74, R76). -/
def Instr.destination : Instr → Option Operand
  | .halt => none
  | .set dst _ => some dst
  | .push _ => none
  | .pop dst => some dst
  | .eq dst _ _ => some dst
  | .gt dst _ _ => some dst
  | .jmp _ => none
  | .jt _ _ => none
  | .jf _ _ => none
  | .add dst _ _ => some dst
  | .mult dst _ _ => some dst
  | .mod dst _ _ => some dst
  | .and dst _ _ => some dst
  | .or dst _ _ => some dst
  | .not dst _ => some dst
  | .rmem dst _ => some dst
  | .wmem _ _ => none
  | .call _ => none
  | .ret => none
  | .out _ => none
  | .inp dst => some dst
  | .noop => none

/-- The rows of R76 whose first operand has the role W: "only those twelve rows have a `dst` operand" (R23). -/
def Mnemonic.hasDestination (m : Mnemonic) : Bool :=
  [Mnemonic.set, .pop, .eq, .gt, .add, .mult, .mod, .and, .or, .not, .rmem, .inp].contains m

end Sys2Proof
end

