-- ==== Sys2Proof/WellFormed.lean ====
section
/-! DEFINITION. Which instructions the spec calls well-formed. The widths of literals and register indices are carried
by the types; the one check left is R74: a write target is a register reference, never a literal. -/

namespace Sys2Proof

/-- The literal that stands in the write-target position, if one does (R74). -/
def Instr.literalDst (i : Instr) : Option Word :=
  match i.destination with
  | some (.lit w) => some w
  | some (.reg _) => none
  | none => none

/-- R74: "For write contexts (an operand that is a destination), only the register-reference form is legal". -/
def Instr.wf (i : Instr) : Bool := i.literalDst == none

end Sys2Proof
end

