-- ==== Sys2Proof/Decode.lean ====
section
/-! DEFINITION. Decoding and encoding (spec/30_encoding.md): the opcode numbers, the operand classes of R73, the decoder,
total on any cell sequence (R79), and after it the encoder. -/

namespace Sys2Proof

/-- `zext_16`: a Word is also a Cell (R6, R7). -/
def zext16 (v : Word) : Cell := v.setWidth 16

/-- The low 15 bits of a cell as a Word; applied only to cells below 32768, where it keeps the value (R73, R75). -/
def low15 (w : Cell) : Word := w.setWidth 15

/-- The opcode numbers of R76. UNVERIFIED: the spec takes the numbering from general knowledge (D2, G1) and asks a model
to hold it as one table that can be replaced: this one (log 14). -/
def opcode : Mnemonic → Cell
  | .halt => 0
  | .set => 1
  | .push => 2
  | .pop => 3
  | .eq => 4
  | .gt => 5
  | .jmp => 6
  | .jt => 7
  | .jf => 8
  | .add => 9
  | .mult => 10
  | .mod => 11
  | .and => 12
  | .or => 13
  | .not => 14
  | .rmem => 15
  | .wmem => 16
  | .call => 17
  | .ret => 18
  | .out => 19
  | .inp => 20
  | .noop => 21

/-- Every mnemonic, in the order of R76's table. -/
def allMnemonics : List Mnemonic :=
  [.halt, .set, .push, .pop, .eq, .gt, .jmp, .jt, .jf, .add, .mult, .mod, .and, .or, .not, .rmem, .wmem, .call, .ret,
   .out, .inp, .noop]

/-- The mnemonic of an opcode cell. The cell is compared raw (R72); a cell that is no opcode has none (R77). -/
def mnemonicOf (op : Cell) : Option Mnemonic := allMnemonics.find? (fun m => opcode m == op)

/-- What stands to the right of the opcode cell: the four formats of R71, each with the instruction its operands make. -/
inductive Shape where
  | f0 (i : Instr)
  | f1 (make : Operand → Instr)
  | f2 (make : Operand → Operand → Instr)
  | f3 (make : Operand → Operand → Operand → Instr)

/-- The format and operand list of each row of R76. It depends on the opcode alone (R78, R94). -/
def shape : Mnemonic → Shape
  | .halt => .f0 .halt
  | .set => .f2 .set
  | .push => .f1 .push
  | .pop => .f1 .pop
  | .eq => .f3 .eq
  | .gt => .f3 .gt
  | .jmp => .f1 .jmp
  | .jt => .f2 .jt
  | .jf => .f2 .jf
  | .add => .f3 .add
  | .mult => .f3 .mult
  | .mod => .f3 .mod
  | .and => .f3 .and
  | .or => .f3 .or
  | .not => .f2 .not
  | .rmem => .f2 .rmem
  | .wmem => .f2 .wmem
  | .call => .f1 .call
  | .ret => .f0 .ret
  | .out => .f1 .out
  | .inp => .f1 .inp
  | .noop => .f0 .noop

/-- `ARITY(op)` (R94): the number of operand cells of a row. -/
def arity (m : Mnemonic) : Nat :=
  match shape m with
  | .f0 _ => 0
  | .f1 _ => 1
  | .f2 _ => 2
  | .f3 _ => 3

/-- The operand cells that follow an opcode cell; none for a cell that is no opcode, whose fetch ends there (R93). -/
def operandCount (op : Cell) : Nat :=
  match mnemonicOf op with
  | some m => arity m
  | none => 0

/-- The class of an operand cell by its value alone (R73): literal 0..32767, register reference 32768..32775, and
`none` for the invalid cells from 32776. -/
def decodeOperand (w : Cell) : Option Operand :=
  if w.toNat < 32768 then some (.lit (low15 w))
  else if h : w.toNat - 32768 < 8 then some (.reg ⟨w.toNat - 32768, h⟩)
  else none

/-- Why a cell sequence gives no instruction: cases (a) to (d) of R79. -/
inductive DecodeError where
  /-- (a) There is no cell at all: the opcode cell would lie past the last address. -/
  | noOpcodeCell
  /-- (b) `UnsupportedOpcode(op)`. -/
  | unsupportedOpcode (op : Cell)
  /-- (c) An operand cell would lie past the last address. -/
  | noOperandCell
  /-- (d) `InvalidOperand(w)`, for the first operand cell of 32776 or more. -/
  | invalidOperand (w : Cell)
  deriving DecidableEq, Repr

/-- What the decoder answers: an instruction and the cells after it, or the reason there is none. -/
inductive Decoded where
  | instr (i : Instr) (rest : List Cell)
  | reject (e : DecodeError)
  deriving DecidableEq, Repr

/-- Decode the operand cells of one format, in order 1, 2, 3, so that the first invalid cell is the one reported (R96).
All cells are present before any is checked (R95 before R96). -/
def decodeShape : Shape → List Cell → Decoded
  | .f0 i, rest => .instr i rest
  | .f1 make, w1 :: rest =>
    match decodeOperand w1 with
    | none => .reject (.invalidOperand w1)
    | some o1 => .instr (make o1) rest
  | .f2 make, w1 :: w2 :: rest =>
    match decodeOperand w1, decodeOperand w2 with
    | none, _ => .reject (.invalidOperand w1)
    | some _, none => .reject (.invalidOperand w2)
    | some o1, some o2 => .instr (make o1 o2) rest
  | .f3 make, w1 :: w2 :: w3 :: rest =>
    match decodeOperand w1, decodeOperand w2, decodeOperand w3 with
    | none, _, _ => .reject (.invalidOperand w1)
    | some _, none, _ => .reject (.invalidOperand w2)
    | some _, some _, none => .reject (.invalidOperand w3)
    | some o1, some o2, some o3 => .instr (make o1 o2 o3) rest
  | _, _ => .reject .noOperandCell

/-- The decoder of R79, on the cells from the opcode cell on. A literal in a write-target position (case (e)) is kept in
the instruction; `classify` below names it, and the meaning raises `InvalidDestination` before anything else (log 10). -/
def decode : List Cell → Decoded
  | [] => .reject .noOpcodeCell
  | op :: rest =>
    match mnemonicOf op with
    | none => .reject (.unsupportedOpcode op)
    | some m => decodeShape (shape m) rest

/-- The six answers of R79, (a) to (f), under the names R79 gives them. -/
inductive Classified where
  | pcExhausted
  | unsupportedOpcode (op : Cell)
  | addressingFault
  | invalidOperand (w : Cell)
  | invalidDestination (w : Cell)
  | decoded (i : Instr)
  deriving DecidableEq, Repr

/-- R79 whole: exactly one of (a) to (f) for any cell sequence. -/
def classify (cells : List Cell) : Classified :=
  match decode cells with
  | .reject .noOpcodeCell => .pcExhausted
  | .reject (.unsupportedOpcode op) => .unsupportedOpcode op
  | .reject .noOperandCell => .addressingFault
  | .reject (.invalidOperand w) => .invalidOperand w
  | .instr i _ =>
    match i.literalDst with
    | some w => .invalidDestination (zext16 w)
    | none => .decoded i

/-- The four cells of a table word: bit 0 is the least significant bit of the first cell, and a later cell's bits count
on from it. -/
def cellsOfWord (w : Nat) : List Cell :=
  [BitVec.ofNat 16 w, BitVec.ofNat 16 (w / 65536), BitVec.ofNat 16 (w / 4294967296),
   BitVec.ofNat 16 (w / 281474976710656)]

/-- The instruction the decoder reads from a word of `nbits` bits; the bits above are 0 (operand cells of zeros). -/
def decodeTableWord (nbits w : Nat) : Option Instr :=
  match decode (cellsOfWord (w % 2 ^ nbits)) with
  | .instr i _ => some i
  | .reject _ => none

/-! ## The encoder -/

/-- The cell of an operand (R22, R73): a literal is its value, register `r` is `32768 + r`. -/
def encodeOperand : Operand → Cell
  | .lit v => zext16 v
  | .reg r => BitVec.ofNat 16 (32768 + r.val)

/-- The cells of an instruction: the opcode cell, then its operand cells (R70, R71, R76). -/
def encode (i : Instr) : List Cell := opcode i.mnemonic :: i.operands.map encodeOperand

/-! ## The program image (R58) -/

/-- The cells of an image's bytes, `cell[k] = byte[2k] + 256 * byte[2k+1]` (R58). An odd byte count is the loader's to
settle (D21, U5) and gives no cells here (log 13). -/
def cellsOfBytes : List (BitVec 8) → Option (List Cell)
  | [] => some []
  | [_] => none
  | lo :: hi :: rest => (cellsOfBytes rest).map (fun cs => BitVec.ofNat 16 (lo.toNat + 256 * hi.toNat) :: cs)

end Sys2Proof
end

