-- ==== Sys2Proof/Config.lean ====
section
/-! DEFINITION. What an implementation fixes: the one parameter of the core, STACK_CAPACITY (R5, R28, decision D20).
The other parameters of R5 are fixed numbers and stand where they are used; the loader policies are the host's (R59, D21).
The spec leaves no result of an instruction undefined, so there is no free value here. -/

namespace Sys2Proof

/-- The parameters of one build of the core. -/
structure Config where
  /-- `STACK_CAPACITY` (R5, D20): `none` is the source's unbounded stack, `some n` a finite build with `n` entries. -/
  stackCapacity : Option Nat
  deriving DecidableEq, Repr

/-- The spec's default: an unbounded stack (R5 "unbounded", D20 "default unbounded"). -/
def Config.default : Config := { stackCapacity := none }

/-- A stack of this depth fits the build: always, in the unbounded one. -/
def Config.admits (c : Config) (depth : Nat) : Bool :=
  match c.stackCapacity with
  | none => true
  | some n => depth ≤ n

end Sys2Proof
end

