-- ==== Sys2Proof/Machine/State.lean ====
section
/-! DEFINITION. The machine's state as plain data (spec/10_state.md), its value after reset (R40), the results a call
returns (R100, R216), and the reasons a transaction of the model can stop. -/

namespace Sys2Proof.Machine

/-- `st` (R30). -/
inductive ExecState where
  | ready | running | awaitingInput | halted | faulted
  deriving DecidableEq, Repr

/-- The normal terminations (R32, R203). -/
inductive StopReason where
  | haltInstruction | retEmptyStack | pcExhausted
  deriving DecidableEq, Repr

/-- The faults of R200. -/
inductive ErrorKind where
  | unsupportedOpcode | invalidOperand | invalidDestination | addressingFault | stackUnderflow | divisionByZero
  | invalidWord | stackOverflow
  deriving DecidableEq, Repr

/-- `term` (R32): None, a normal termination, or a fault. -/
inductive Term where
  | none
  | stopped (r : StopReason)
  | raised (e : ErrorKind)
  deriving DecidableEq, Repr

/-- What a host call returns (R100, R182, R216). `refused` is `Refused(IOProtocolViolation)` (R206). -/
inductive CallResult where
  | done (op : Mnemonic) (st : ExecState)
  | exhausted
  | fault (code : Term) (info : Cell)
  | terminal (term : Term)
  | refused
  | accepted
  deriving DecidableEq, Repr

/-- Memory (R29): (address, cell) pairs in canonical form (`Memory.wf`, Machine/Ops.lean): addresses strictly rising and
below 32768, no pair with the cell 0 that an unlisted address reads as (R40, D4). One entry is one 16-bit Cell: the spec
has no bytes inside the engine (R52; log 1). -/
abbrev Memory := List (Nat × Cell)

/-- The state tuple of R20, the build's parameter, and the host's side of the I/O port. -/
structure State where
  /-- `mem`: 32768 Cells (R29). -/
  mem : Memory
  /-- `x`: the eight registers r0..r7 (R21). -/
  x : Vector Word 8
  /-- `pc`: a PcVal, 0..32768 (R24); the bound is part of `State.Inv`. -/
  pc : Nat
  /-- `stack`: the one LIFO stack of data and return addresses (R27), top first (the spec writes it top last; log 8). -/
  stack : List Word
  /-- `st`: the execution state (R30). -/
  st : ExecState
  /-- `term`: the termination reason (R32). -/
  term : Term
  /-- `finfo`: the fault information (R33). -/
  finfo : Cell
  /-- `in_dst`: the register a suspended IN will write (R34). -/
  inDst : Option RegIdx
  /-- The parameters of the build (R5, D20); no call writes them (log 6). -/
  cfg : Config
  /-- The output trace: every emitted code, in step order (R214). -/
  out : List Word
  /-- The model's own: the codes the host is going to supply, oldest first (R215, U9; log 3). -/
  supplies : List Word
  deriving DecidableEq, Repr

/-- Why a transaction of the model has no next state. No state that meets `State.Inv` gives one: the spec's own errors
are next states with `st` Faulted (R202), not these. -/
inductive Fault where
  /-- Raised by `runInstr` when `pc` is above 32768, a value R24 excludes. Safe: the model stops where the spec has no
  machine. -/
  | pcOutOfRange
  /-- Raised by `supplyCall` in AwaitingInput with no destination latched, which R34 and R181 exclude. Safe: the model
  stops where the spec has no machine. -/
  | noPendingDestination
  deriving DecidableEq, Repr

/-- Why a request is not carried out at all. -/
inductive Refusal where
  /-- An instruction without a meaning, by mnemonic. Raised by no arm of this model. Safe. -/
  | notModelled (mnemonic : String)
  /-- Raised by `boot` for an image of more than 32768 cells: the load port takes at most 32768 (R59, C10, U4), and what
  the loader does with a longer file is the host's (D21). Safe: no machine results. -/
  | imageTooLong
  deriving DecidableEq, Repr

/-- The machine right after reset with no image loaded (R40, R240): memory all 0, registers 0, `pc` 0, stack empty, `st`
Ready, `term` None, `finfo` 0, `in_dst` none, the unbounded stack (R5), nothing emitted and no supply announced. -/
def State.reset : State :=
  { mem := []
    x := Vector.replicate 8 0
    pc := 0
    stack := []
    st := .ready
    term := .none
    finfo := 0
    inDst := none
    cfg := Config.default
    out := []
    supplies := [] }

end Sys2Proof.Machine
end

