-- ==== Sys2Proof/Machine/Ops.lean ====
section
/-! DEFINITION. The named operations every meaning is written over: the pseudocode primitives of R8 on memory, registers
and stack, the cursor (R98), completion (R101), the fault action (R202) and the normal stop (R203), and the numeric codes
of R30, R32 and R200. -/

namespace Sys2Proof.Machine

/-- What a meaning or a step answers. -/
abbrev Result := Host.Outcome State Fault Refusal

/-! ## Memory (R8 `MemRead`, `MemWrite`; R29, R54) -/

/-- `MemRead(p, 1)`: the cell at an address. An unlisted address reads 0 (R40, D4). Callers keep `p` below 32768. -/
def Memory.read : Memory → Nat → Cell
  | [], _ => 0
  | (a, v) :: m, p => if a = p then v else Memory.read m p

/-- List a cell in front of the cells of higher addresses; a cell of 0 is not listed. -/
def Memory.consCell (p : Nat) (v : Cell) (m : Memory) : Memory := if v = 0 then m else (p, v) :: m

/-- Store a cell, keeping the canonical form. -/
def Memory.write : Memory → Nat → Cell → Memory
  | [], p, v => Memory.consCell p v []
  | (a, w) :: m, p, v =>
    if p < a then Memory.consCell p v ((a, w) :: m)
    else if p = a then Memory.consCell p v m
    else (a, w) :: Memory.write m p v

/-- The canonical form from address `lo` on: addresses strictly rising, below 32768, and no cell 0. -/
def Memory.wfFrom : Nat → Memory → Bool
  | _, [] => true
  | lo, (a, v) :: m => decide (lo ≤ a) && decide (a < 32768) && v != 0 && Memory.wfFrom (a + 1) m

/-- The canonical form of a memory: equal memories are equal lists. -/
def Memory.wf (m : Memory) : Bool := Memory.wfFrom 0 m

/-- The memory that holds the cells of an image from address `k` on, unmodified, and 0 elsewhere (R59). -/
def Memory.ofCells : Nat → List Cell → Memory
  | _, [] => []
  | k, c :: cs => Memory.consCell k c (Memory.ofCells (k + 1) cs)

/-- Store a list of cells at consecutive addresses inside memory (used to place an instruction, `withFetchWord`). -/
def Memory.place : Memory → Nat → List Cell → Memory
  | m, _, [] => m
  | m, p, c :: cs => if p < 32768 then Memory.place (m.write p c) (p + 1) cs else m

/-- `MemWrite(a, 1, v)`: the Word `v` as the Cell `zext_16(v)` at the Word address `a` (R8, R54, R57). -/
def State.storeWord (s : State) (a v : Word) : State := { s with mem := s.mem.write a.toNat (zext16 v) }

/-- A Cell is a Word only when it is below 32768 (R7); the value is kept. -/
def cellToWord (c : Cell) : Option Word := if c.toNat < 32768 then some (low15 c) else none

/-! ## Registers (R8 `x[i]`, R21) -/

/-- `x[i]`. -/
def State.readReg (s : State) (r : RegIdx) : Word := s.x[r]

/-- `x[i] <- v`. -/
def State.writeReg (s : State) (r : RegIdx) (v : Word) : State := { s with x := s.x.set r.val v r.isLt }

/-! ## Stack (R8 `Push`, `Pop`, `Empty`; R27, R28) -/

/-- `Push(v)`. -/
def State.pushWord (s : State) (v : Word) : State := { s with stack := v :: s.stack }

/-- The entries left after `Pop()`. -/
def State.withStack (s : State) (stack : List Word) : State := { s with stack := stack }

/-- A push would exceed `STACK_CAPACITY`; never in the unbounded build (R28, D20). -/
def State.stackFull (s : State) : Bool := !s.cfg.admits (s.stack.length + 1)

/-! ## Output (R214) -/

/-- `emit(v)`: the event `Out(v)` appended to the output trace. -/
def State.emit (s : State) (v : Word) : State := { s with out := s.out ++ [v] }

/-! ## The end of an instruction -/

/-- `cursor = pc + 1 + n`, the address past the last cell of an instruction with `n` operands (R98). -/
def State.cursor (s : State) (n : Nat) : Nat := s.pc + 1 + n

/-- `pc <- target`. -/
def State.setPc (s : State) (target : Nat) : State := { s with pc := target }

/-- An instruction completes: `pc <- target`, then `st <- Running` (R25, R98, R101). -/
def State.complete (s : State) (target : Nat) : State := { s with pc := target, st := .running }

/-- `raise E(info)` (R202): `st`, `term` and `finfo` are written and nothing else. TAKING AN EXCEPTION, the one shared
operation; there is no return from one (R209). -/
def State.raise (s : State) (e : ErrorKind) (info : Cell) : State :=
  { s with st := .faulted, term := .raised e, finfo := info }

/-- `stop R` (R203): `st <- Halted`, `term <- R`; `finfo` stays. -/
def State.stop (s : State) (r : StopReason) : State := { s with st := .halted, term := .stopped r }

/-- IN suspends (R181): the destination is latched and the engine waits; `pc` stays at the IN. -/
def State.suspend (s : State) (r : RegIdx) : State := { s with st := .awaitingInput, inDst := some r }

/-- The supply completes the suspended IN (R182): `x[in_dst] <- c`, `pc <- pc + 2`, `st <- Running`. -/
def State.resume (s : State) (r : RegIdx) (c : Word) : State := (s.writeReg r c).complete (s.cursor 1)

/-! ## Codes (R30, R32, R200; D10): for reports only, no instruction reads them -/

/-- The code of `st` (R30). -/
def ExecState.code : ExecState → Nat
  | .ready => 0
  | .running => 1
  | .awaitingInput => 2
  | .halted => 3
  | .faulted => 4

/-- The code of a fault (R200). -/
def ErrorKind.code : ErrorKind → Nat
  | .unsupportedOpcode => 16
  | .invalidOperand => 17
  | .invalidDestination => 18
  | .addressingFault => 19
  | .stackUnderflow => 20
  | .divisionByZero => 21
  | .invalidWord => 22
  | .stackOverflow => 23

/-- The code of `term` (R32). -/
def Term.code : Term → Nat
  | .none => 0
  | .stopped .haltInstruction => 1
  | .stopped .retEmptyStack => 2
  | .stopped .pcExhausted => 3
  | .raised e => e.code

end Sys2Proof.Machine
end

