-- ==== Sys2Proof/Machine/Operands.lean ====
section
/-! DEFINITION. The operand resolver (spec/40_step_and_operands.md, R90 and R91) on decoded operands. The invalid cells
of R73 never become operands: the decoder rejects them (R96). -/

namespace Sys2Proof.Machine

/-- `resolve(w)` (R90): a literal is its value, a register reference the register's current content. -/
def State.resolve (s : State) : Operand → Word
  | .lit v => v
  | .reg r => s.readReg r

/-- `target(w)` (R91) and what follows it: a register reference names the destination of `k`; a literal raises
`InvalidDestination` with the operand cell, before any other check of the instruction (R96, R207). -/
def withTarget (dst : Operand) (s : State) (k : RegIdx → Result) : Result :=
  match dst with
  | .reg r => k r
  | .lit w => .next (s.raise .invalidDestination (zext16 w))

end Sys2Proof.Machine
end

