-- ==== Sys2Proof/Machine/Alu.lean ====
section
/-! DEFINITION. ADD, MULT, MOD, AND, OR, NOT (spec/44_alu.md). Results are computed exactly on naturals and narrowed
modulo 32768 at the end (R156); there are no flags. -/

namespace Sys2Proof.Machine

/-- The normalisation of R156: `v mod 32768` as a Word. -/
def wrap15 (v : Nat) : Word := BitVec.ofNat 15 (v % 32768)

/-- `(a + b) mod 32768` (R150). -/
def aluAdd (a b : Word) : Word := wrap15 (a.toNat + b.toNat)

/-- `(a * b) mod 32768` (R151). -/
def aluMult (a b : Word) : Word := wrap15 (a.toNat * b.toNat)

/-- `(a mod b) mod 32768` (R152), for `b` not 0. -/
def aluMod (a b : Word) : Word := wrap15 (a.toNat % b.toNat)

/-- `(a & b) mod 32768` (R153). -/
def aluAnd (a b : Word) : Word := wrap15 (a.toNat &&& b.toNat)

/-- `(a | b) mod 32768` (R154). -/
def aluOr (a b : Word) : Word := wrap15 (a.toNat ||| b.toNat)

/-- `~15(a)`, the 15-bit complement (R7, R155). -/
def aluNot (a : Word) : Word := ~~~a

/-- ADD (R150). -/
def execAdd (dst a b : Operand) (s : State) : Result :=
  withTarget dst s fun d => .next ((s.writeReg d (aluAdd (s.resolve a) (s.resolve b))).complete (s.cursor 3))

/-- MULT (R151). -/
def execMult (dst a b : Operand) (s : State) : Result :=
  withTarget dst s fun d => .next ((s.writeReg d (aluMult (s.resolve a) (s.resolve b))).complete (s.cursor 3))

/-- MOD (R152): `DivisionByZero` when `b` is 0. -/
def execMod (dst a b : Operand) (s : State) : Result :=
  withTarget dst s fun d =>
    if s.resolve b = 0 then .next (s.raise .divisionByZero 0)
    else .next ((s.writeReg d (aluMod (s.resolve a) (s.resolve b))).complete (s.cursor 3))

/-- AND (R153). -/
def execAnd (dst a b : Operand) (s : State) : Result :=
  withTarget dst s fun d => .next ((s.writeReg d (aluAnd (s.resolve a) (s.resolve b))).complete (s.cursor 3))

/-- OR (R154). -/
def execOr (dst a b : Operand) (s : State) : Result :=
  withTarget dst s fun d => .next ((s.writeReg d (aluOr (s.resolve a) (s.resolve b))).complete (s.cursor 3))

/-- NOT (R155). -/
def execNot (dst a : Operand) (s : State) : Result :=
  withTarget dst s fun d => .next ((s.writeReg d (aluNot (s.resolve a))).complete (s.cursor 2))

end Sys2Proof.Machine
end

