-- ==== Sys2Proof/Machine/CallReturn.lean ====
section
/-! DEFINITION. CALL, RET (spec/46_call_return.md). -/

namespace Sys2Proof.Machine

/-- CALL (R170): `AddressingFault(32768)` when the return address is past memory (checked first, R207), `StackOverflow`
on a full stack of a finite build, else push the cursor and jump. -/
def execCall (a : Operand) (s : State) : Result :=
  if s.cursor 1 > 32767 then .next (s.raise .addressingFault 32768)
  else if s.stackFull then .next (s.raise .stackOverflow 0)
  else .next ((s.pushWord (BitVec.ofNat 15 (s.cursor 1))).complete (s.resolve a).toNat)

/-- RET (R171): to the popped address; on an empty stack `pc <- cursor` and the normal stop RetEmptyStack. -/
def execRet (s : State) : Result :=
  match s.stack with
  | [] => .next ((s.setPc (s.cursor 0)).stop .retEmptyStack)
  | t :: rest => .next ((s.withStack rest).complete t.toNat)

end Sys2Proof.Machine
end

