-- ==== Sys2Proof/Machine/Flags.lean ====
section
/-! DEFINITION. The machine has no flags (R36): a comparison writes 0 or 1 into a register and a conditional jump tests a
read operand for zero. These are those truth values. -/

namespace Sys2Proof.Machine

/-- The Word of a truth value: "EQ/GT produce only 0 or 1" (R130, R131). -/
def truthWord (b : Bool) : Word := if b then 1 else 0

/-- EQ's test (R130). -/
def eqTest (a b : Word) : Bool := a == b

/-- GT's test (R131): strict and unsigned. -/
def gtTest (a b : Word) : Bool := decide (b.toNat < a.toNat)

/-- The test of JT and JF (R141, R142): every non-zero value is true. -/
def nonZero (a : Word) : Bool := a != 0

end Sys2Proof.Machine
end

