-- ==== Sys2Proof/Machine/Compare.lean ====
section
/-! DEFINITION. EQ, GT (spec/42_compare.md). -/

namespace Sys2Proof.Machine

/-- EQ (R130): `x[dst] <- 1` if `a == b`, else 0. -/
def execEq (dst a b : Operand) (s : State) : Result :=
  withTarget dst s fun d =>
    .next ((s.writeReg d (truthWord (eqTest (s.resolve a) (s.resolve b)))).complete (s.cursor 3))

/-- GT (R131): `x[dst] <- 1` if `a > b` unsigned, else 0. -/
def execGt (dst a b : Operand) (s : State) : Result :=
  withTarget dst s fun d =>
    .next ((s.writeReg d (truthWord (gtTest (s.resolve a) (s.resolve b)))).complete (s.cursor 3))

end Sys2Proof.Machine
end

