-- ==== Sys2Proof/Machine/DataMovement.lean ====
section
/-! DEFINITION. SET, PUSH, POP (spec/41_data_movement.md). -/

namespace Sys2Proof.Machine

/-- SET (R120): `x[dst] <- a`. -/
def execSet (dst a : Operand) (s : State) : Result :=
  withTarget dst s fun d => .next ((s.writeReg d (s.resolve a)).complete (s.cursor 2))

/-- PUSH (R121): `StackOverflow` on a full stack of a finite build, else `Push(a)`. -/
def execPush (a : Operand) (s : State) : Result :=
  if s.stackFull then .next (s.raise .stackOverflow 0)
  else .next ((s.pushWord (s.resolve a)).complete (s.cursor 1))

/-- POP (R122): `StackUnderflow` on an empty stack, else the top entry into `x[dst]`. -/
def execPop (dst : Operand) (s : State) : Result :=
  withTarget dst s fun d =>
    match s.stack with
    | [] => .next (s.raise .stackUnderflow 0)
    | v :: rest => .next (((s.withStack rest).writeReg d v).complete (s.cursor 1))

end Sys2Proof.Machine
end

