-- ==== Sys2Proof/Machine/HaltNoop.lean ====
section
/-! DEFINITION. HALT, NOOP (spec/48_halt_noop.md). -/

namespace Sys2Proof.Machine

/-- HALT (R190): `pc <- cursor`, then the normal stop HaltInstruction. -/
def execHalt (s : State) : Result := .next ((s.setPc (s.cursor 0)).stop .haltInstruction)

/-- NOOP (R191): `pc <- cursor`. -/
def execNoop (s : State) : Result := .next (s.complete (s.cursor 0))

end Sys2Proof.Machine
end

