-- ==== Sys2Proof/Machine/InOut.lean ====
section
/-! DEFINITION. OUT, IN, and the host's `supply` that completes an IN (spec/47_io.md). -/

namespace Sys2Proof.Machine

/-- OUT (R180): one emission of the code `a`, unchanged. -/
def execOut (a : Operand) (s : State) : Result := .next ((s.emit (s.resolve a)).complete (s.cursor 1))

/-- IN (R181): latch `dst` and wait; the instruction completes in `supply`. -/
def execInp (dst : Operand) (s : State) : Result := withTarget dst s fun d => .next (s.suspend d)

/-- `supply(c)` (R182): completes the suspended IN; refused without effect in Ready and Running (R206), `Terminal` in
Halted and Faulted (R35). -/
def supplyCall (c : Word) (s : State) : Host.Outcome (State × CallResult) Fault Refusal :=
  match s.st with
  | .halted => .next (s, .terminal s.term)
  | .faulted => .next (s, .terminal s.term)
  | .ready => .next (s, .refused)
  | .running => .next (s, .refused)
  | .awaitingInput =>
    match s.inDst with
    | some r => .next (s.resume r c, .accepted)
    | none => .fault .noPendingDestination

end Sys2Proof.Machine
end

