-- ==== Sys2Proof/Machine/Jumps.lean ====
section
/-! DEFINITION. JMP, JT, JF (spec/43_jumps.md). A target is a Word, so always an address (R143). -/

namespace Sys2Proof.Machine

/-- JMP (R140): `pc <- a`. -/
def execJmp (a : Operand) (s : State) : Result := .next (s.complete (s.resolve a).toNat)

/-- JT (R141): to `b` if `a` is not 0. -/
def execJt (a b : Operand) (s : State) : Result :=
  .next (s.complete (if nonZero (s.resolve a) then (s.resolve b).toNat else s.cursor 2))

/-- JF (R142): to `b` if `a` is 0. -/
def execJf (a b : Operand) (s : State) : Result :=
  .next (s.complete (if nonZero (s.resolve a) then s.cursor 2 else (s.resolve b).toNat))

end Sys2Proof.Machine
end

