-- ==== Sys2Proof/Machine/MemoryAccess.lean ====
section
/-! DEFINITION. RMEM, WMEM (spec/45_memory_access.md). An address is a Word, so always inside memory (R57). -/

namespace Sys2Proof.Machine

/-- RMEM (R160): the cell at `b` into `x[dst]`; `InvalidWord` with the cell when it is no Word. -/
def execRmem (dst b : Operand) (s : State) : Result :=
  withTarget dst s fun d =>
    match cellToWord (s.mem.read (s.resolve b).toNat) with
    | none => .next (s.raise .invalidWord (s.mem.read (s.resolve b).toNat))
    | some v => .next ((s.writeReg d v).complete (s.cursor 2))

/-- WMEM (R161): the Word `b` to the address `a`, both read before the write (R65, R102). -/
def execWmem (a b : Operand) (s : State) : Result :=
  .next ((s.storeWord (s.resolve a) (s.resolve b)).complete (s.cursor 2))

end Sys2Proof.Machine
end

