-- ==== Sys2Proof/Machine/Dispatch.lean ====
section
/-! DEFINITION. `EXEC(op)` of R103: one arm per constructor of Instr, in the order of R76. -/

namespace Sys2Proof.Machine

def exec (i : Instr) (s : State) : Host.Outcome State Fault Refusal :=
  match i with
  | .halt => Sys2Proof.Machine.execHalt s
  | .set dst a => Sys2Proof.Machine.execSet dst a s
  | .push a => Sys2Proof.Machine.execPush a s
  | .pop dst => Sys2Proof.Machine.execPop dst s
  | .eq dst a b => Sys2Proof.Machine.execEq dst a b s
  | .gt dst a b => Sys2Proof.Machine.execGt dst a b s
  | .jmp a => Sys2Proof.Machine.execJmp a s
  | .jt a b => Sys2Proof.Machine.execJt a b s
  | .jf a b => Sys2Proof.Machine.execJf a b s
  | .add dst a b => Sys2Proof.Machine.execAdd dst a b s
  | .mult dst a b => Sys2Proof.Machine.execMult dst a b s
  | .mod dst a b => Sys2Proof.Machine.execMod dst a b s
  | .and dst a b => Sys2Proof.Machine.execAnd dst a b s
  | .or dst a b => Sys2Proof.Machine.execOr dst a b s
  | .not dst a => Sys2Proof.Machine.execNot dst a s
  | .rmem dst b => Sys2Proof.Machine.execRmem dst b s
  | .wmem a b => Sys2Proof.Machine.execWmem a b s
  | .call a => Sys2Proof.Machine.execCall a s
  | .ret => Sys2Proof.Machine.execRet s
  | .out a => Sys2Proof.Machine.execOut a s
  | .inp dst => Sys2Proof.Machine.execInp dst s
  | .noop => Sys2Proof.Machine.execNoop s

end Sys2Proof.Machine
end

