-- ==== Sys2Proof/Machine/Fetch.lean ====
section
/-! DEFINITION. Instruction fetch (R93 to R95): the opcode cell at `pc` and exactly its operand cells, given to the
decoder. -/

namespace Sys2Proof.Machine

/-- Up to `n` consecutive cells from address `p`, ending at the last address 32767 (R57, R95). -/
def cellsFrom (m : Memory) (p : Nat) : Nat → List Cell
  | 0 => []
  | n + 1 => if p < 32768 then m.read p :: cellsFrom m (p + 1) n else []

/-- The cells of the instruction at `pc`: the opcode cell and its operand cells (R54), as far as memory reaches; at the
exhausted `pc` nothing is read (R99). -/
def fetchCells (s : State) : List Cell :=
  if s.pc < 32768 then cellsFrom s.mem s.pc (1 + operandCount (s.mem.read s.pc)) else []

/-- Fetch and decode the instruction at `pc`. -/
def fetch (s : State) : Decoded := decode (fetchCells s)

end Sys2Proof.Machine
end

