-- ==== Sys2Proof/Machine/StepCall.lean ====
section
/-! DEFINITION. The `step()` call of R103, with the result it returns (R100). -/

namespace Sys2Proof.Machine

/-- The end of R103: `Fault(code, info)` if the instruction raised, else `Done(op, st)` (R100). -/
def report (m : Mnemonic) : Result → Host.Outcome (State × CallResult) Fault Refusal
  | .next t => .next (t, if t.st = .faulted then .fault t.term t.finfo else .done m t.st)
  | .fault f => .fault f
  | .refused r => .refused r

/-- A `step()` that raises before any instruction is reached (R202). -/
def raiseCall (s : State) (e : ErrorKind) (info : Cell) : Host.Outcome (State × CallResult) Fault Refusal :=
  .next (s.raise e info, .fault (.raised e) info)

/-- The one instruction of a `step()` in Ready or Running, with the checks in the order of R103 and R207: PC exhaustion,
UnsupportedOpcode, AddressingFault, InvalidOperand, then the instruction. -/
def runInstr (s : State) : Host.Outcome (State × CallResult) Fault Refusal :=
  if s.pc > 32768 then .fault .pcOutOfRange
  else
    match fetch s with
    | .reject .noOpcodeCell => .next (s.stop .pcExhausted, .exhausted)
    | .reject (.unsupportedOpcode op) => raiseCall s .unsupportedOpcode op
    | .reject .noOperandCell => raiseCall s .addressingFault 32768
    | .reject (.invalidOperand w) => raiseCall s .invalidOperand w
    | .instr i _ => report i.mnemonic (exec i s)

/-- `step()` (R92, R103). -/
def stepCall (s : State) : Host.Outcome (State × CallResult) Fault Refusal :=
  match s.st with
  | .halted => .next (s, .terminal s.term)
  | .faulted => .next (s, .terminal s.term)
  | .awaitingInput => .next (s, .refused)
  | .ready => runInstr s
  | .running => runInstr s

end Sys2Proof.Machine
end

