-- ==== Sys2Proof/Machine/HostPort.lean ====
section
/-! DEFINITION. The host interface of one instance (R216): reset and load, the calls, and which call a host that keeps
R215 makes next. -/

namespace Sys2Proof.Machine

/-- The calls the host makes after reset (R216). -/
inductive HostCall where
  | step
  | supply (c : Word)
  deriving DecidableEq, Repr

/-- One host call: the state after it and the result it returns. -/
def call : HostCall → State → Host.Outcome (State × CallResult) Fault Refusal
  | .step, s => stepCall s
  | .supply c, s => supplyCall c s

/-- Reset and load (R59, R240): a new instance of a build with the image's cells from address 0. -/
def boot (cfg : Config) (image : List Cell) : Result :=
  if image.length ≤ 32768 then .next { State.reset with mem := Memory.ofCells 0 image, cfg := cfg }
  else .refused .imageTooLong

/-- The next call of a host that keeps R215, and the state it leaves to be called: while AwaitingInput the next announced
code is supplied; otherwise, and when no code is announced, it is `step()` (log 3). -/
def hostTurn (s : State) : HostCall × State :=
  match s.st, s.supplies with
  | .awaitingInput, c :: rest => (.supply c, { s with supplies := rest })
  | _, _ => (.step, s)

/-- The state a call leaves, without its result. -/
def stateOf : Host.Outcome (State × CallResult) Fault Refusal → Result
  | .next p => .next p.1
  | .fault f => .fault f
  | .refused r => .refused r

end Sys2Proof.Machine
end

