-- ==== Sys2Proof/Machine/Step.lean ====
section
/-! DEFINITION. The machine's step: the next call of the host (log 3), and how an instruction word is placed for it. -/

namespace Sys2Proof.Machine

/-- One step of the machine: the call `hostTurn` says, without its result. In Ready and Running that is one instruction
(R103); in AwaitingInput the next supply (R182); in Halted and Faulted nothing changes (R35). -/
def step (s : State) : Host.Outcome State Fault Refusal :=
  stateOf (call (hostTurn s).1 (hostTurn s).2)

/-- `s` with the instruction of a table word placed at `pc`, and the engine ready to fetch it. -/
def State.withFetchWord (s : State) (nbits w : Nat) : State :=
  { s with
    mem := s.mem.place s.pc (cellsOfWord (w % 2 ^ nbits))
    st := if s.st = .ready then .ready else .running }

end Sys2Proof.Machine
end

