-- ==== Sys2Proof/Safety.lean ====
section
/-! DEFINITION. What claims are stated in: the invariant of the machine, and safe runs. -/

namespace Sys2Proof.Machine

/-- The termination reason goes with the execution state (R32): None in Ready, Running and AwaitingInput, a normal
termination in Halted, a fault in Faulted. -/
def Term.fits : Term → ExecState → Bool
  | .none, .ready => true
  | .none, .running => true
  | .none, .awaitingInput => true
  | .stopped _, .halted => true
  | .raised _, .faulted => true
  | _, _ => false

/-- `pc` addresses an IN whose destination is the latched one (R34, R181, C8). -/
def State.pendingIn (s : State) : Bool :=
  match s.inDst, fetch s with
  | some d, .instr (.inp (.reg e)) _ => d == e
  | _, _ => false

/-- The invariant: memory in canonical form, `pc` a PcVal (R24), `term` and `finfo` as R32 and R33 say, a pending IN
exactly described while AwaitingInput (R34), the stack within `STACK_CAPACITY` (R28). -/
abbrev State.Inv (s : State) : Prop :=
  s.mem.wf = true ∧ s.pc ≤ 32768 ∧ s.term.fits s.st = true ∧ (s.st ≠ .faulted → s.finfo = 0) ∧
    (s.st = .awaitingInput → s.pendingIn = true) ∧ s.cfg.admits s.stack.length = true

/-- A run from `s` is safe: however many steps are made, the machine has a next state. -/
def SafeRun (s : State) : Prop := ∀ k, ∃ t, Sys2Proof.core.run k s = .next t

/-- The engine may execute an instruction: Ready or Running (R92). -/
abbrev State.active (s : State) : Prop := s.st = .ready ∨ s.st = .running

/-- The engine has ended: Halted or Faulted (R35). -/
abbrev State.ended (s : State) : Prop := s.st = .halted ∨ s.st = .faulted

end Sys2Proof.Machine
end

