-- ==== Sys2Proof/Certificates/Slice0/Obligations.lean ====
section
/-! DEFINITION. The statements for the provers. Each instruction's statement gives its cells (with the opcode numbers of
R76, which the spec takes from general knowledge, log 14), its whole next state on every form, and so its frame: a field
that `{ s with … }` does not name is unchanged. `s.resolve a` is the value of a read operand (R90), said cell by cell in
`OperandCellsResolveByTheirValue`; `encodeOperand (.lit w)` is the operand cell that holds the literal `w`. -/

open Sys2Proof Sys2Proof.Machine

/-- For every state: HALT is the cell 0; it answers a next state in which pc is pc + 1, st is Halted, term is
HaltInstruction and all else is unchanged; and every later call (step or supply) on that state returns
Terminal(HaltInstruction) and changes nothing. A step() call whose fetch gives HALT, in Ready or Running, returns
Done(HALT, Halted) and that state. (R190) -/
def Obligations.HaltStopsAtTheCursorForEver : Prop :=
  encode .halt = [0] ∧
  ∀ s : State, ∃ t, t = { s with pc := s.pc + 1, st := .halted, term := .stopped .haltInstruction } ∧
    exec .halt s = .next t ∧ (∀ c, call c t = .next (t, .terminal (.stopped .haltInstruction))) ∧
    ∀ rest, s.active → s.pc ≤ 32767 → fetch s = .instr .halt rest → call .step s = .next (t, .done .halt .halted)

/-- For all operands and states: SET is the cells [1, dst, a]; with a register destination d it answers the next state
in which x[d] is the value of a, pc is pc + 3, st is Running and all else (other registers, memory, stack, output,
status) is unchanged; with a literal destination it raises InvalidDestination with that cell. (R120) -/
def Obligations.SetCopiesTheOperandIntoTheRegister : Prop :=
  (∀ dst a, encode (.set dst a) = [1, encodeOperand dst, encodeOperand a]) ∧
  (∀ (d : RegIdx) (a : Operand) (s : State), exec (.set (.reg d) a) s =
    .next { s with x := s.x.set d (s.resolve a), pc := s.pc + 3, st := .running }) ∧
  (∀ (w : Word) (a : Operand) (s : State), exec (.set (.lit w) a) s =
      .next { s with st := .faulted, term := .raised .invalidDestination, finfo := encodeOperand (.lit w) })

/-- For all operands and states: PUSH is the cells [2, a]; when the build is unbounded or the depth is below
STACK_CAPACITY it answers the next state with the value of a on top of the stack, pc + 2, Running, all else
unchanged; when the depth equals a finite STACK_CAPACITY it raises StackOverflow(0). (R121) -/
def Obligations.PushAddsOneEntryUnlessTheFiniteStackIsFull : Prop :=
  (∀ a, encode (.push a) = [2, encodeOperand a]) ∧
  ∀ (a : Operand) (s : State),
    ((∀ n, s.cfg.stackCapacity = some n → s.stack.length < n) → exec (.push a) s =
      .next { s with stack := s.resolve a :: s.stack, pc := s.pc + 2, st := .running }) ∧
    (s.cfg.stackCapacity = some s.stack.length → exec (.push a) s =
      .next { s with st := .faulted, term := .raised .stackOverflow, finfo := 0 })

/-- For all operands and states: POP is the cells [3, dst]; with a register destination d and top entry v it answers the
next state with x[d] = v, that entry gone, pc + 2, Running, all else unchanged; with an empty stack it raises
StackUnderflow(0); with a literal destination it raises InvalidDestination whatever the stack holds. (R122) -/
def Obligations.PopTakesTheTopEntryOrUnderflows : Prop :=
  (∀ dst, encode (.pop dst) = [3, encodeOperand dst]) ∧
  (∀ (d : RegIdx) (s : State) (v : Word) (rest : List Word), s.stack = v :: rest → exec (.pop (.reg d)) s =
    .next { s with x := s.x.set d v, stack := rest, pc := s.pc + 2, st := .running }) ∧
  (∀ (d : RegIdx) (s : State), s.stack = [] → exec (.pop (.reg d)) s =
    .next { s with st := .faulted, term := .raised .stackUnderflow, finfo := 0 }) ∧
  (∀ (w : Word) (s : State), exec (.pop (.lit w)) s =
      .next { s with st := .faulted, term := .raised .invalidDestination, finfo := encodeOperand (.lit w) })

/-- For all operands and states: EQ is the cells [4, dst, a, b]; it answers the next state with 1 if a = b and 0
otherwise in the destination register, pc + 4, Running, all else unchanged; a literal destination raises
InvalidDestination with that cell. (R130) -/
def Obligations.EqWritesOneExactlyWhenEqual : Prop :=
  (∀ dst a b, encode (.eq dst a b) = [4, encodeOperand dst, encodeOperand a, encodeOperand b]) ∧
  (∀ (d : RegIdx) (a b : Operand) (s : State), ∃ v : Word,
    ((s.resolve a).toNat = (s.resolve b).toNat → v.toNat = 1) ∧ ((s.resolve a).toNat ≠ (s.resolve b).toNat → v.toNat = 0) ∧
    exec (.eq (.reg d) a b) s = .next { s with x := s.x.set d v, pc := s.pc + 4, st := .running }) ∧
  (∀ (w : Word) (a b : Operand) (s : State), exec (.eq (.lit w) a b) s =
      .next { s with st := .faulted, term := .raised .invalidDestination, finfo := encodeOperand (.lit w) })

/-- For all operands and states: GT is the cells [5, dst, a, b]; it answers the next state with 1 if a > b as unsigned
Words and 0 otherwise in the destination register, pc + 4, Running, all else unchanged; a literal destination raises
InvalidDestination with that cell. (R131) -/
def Obligations.GtWritesOneExactlyWhenGreaterUnsigned : Prop :=
  (∀ dst a b, encode (.gt dst a b) = [5, encodeOperand dst, encodeOperand a, encodeOperand b]) ∧
  (∀ (d : RegIdx) (a b : Operand) (s : State), ∃ v : Word,
    ((s.resolve b).toNat < (s.resolve a).toNat → v.toNat = 1) ∧ ((s.resolve a).toNat ≤ (s.resolve b).toNat → v.toNat = 0) ∧
    exec (.gt (.reg d) a b) s = .next { s with x := s.x.set d v, pc := s.pc + 4, st := .running }) ∧
  (∀ (w : Word) (a b : Operand) (s : State), exec (.gt (.lit w) a b) s =
      .next { s with st := .faulted, term := .raised .invalidDestination, finfo := encodeOperand (.lit w) })

/-- For all operands and states: JMP is the cells [6, a]; it answers the next state with pc the value of a, Running, all
else unchanged; a step() call whose fetch gives that JMP, in Ready or Running, returns Done(JMP, Running). (R140) -/
def Obligations.JmpGoesToItsTarget : Prop :=
  (∀ a, encode (.jmp a) = [6, encodeOperand a]) ∧
  ∀ (a : Operand) (s : State), ∃ t, t = { s with pc := (s.resolve a).toNat, st := .running } ∧
    exec (.jmp a) s = .next t ∧
    ∀ rest, s.active → s.pc ≤ 32767 → fetch s = .instr (.jmp a) rest → call .step s = .next (t, .done .jmp .running)

/-- For all operands and states: JT is the cells [7, a, b]; when a is not 0 the next state has pc the value of b, when a
is 0 it has pc + 3; Running, all else unchanged. (R141) -/
def Obligations.JtJumpsExactlyOnNonZero : Prop :=
  (∀ a b, encode (.jt a b) = [7, encodeOperand a, encodeOperand b]) ∧
  ∀ (a b : Operand) (s : State),
    ((s.resolve a).toNat ≠ 0 → exec (.jt a b) s = .next { s with pc := (s.resolve b).toNat, st := .running }) ∧
    ((s.resolve a).toNat = 0 → exec (.jt a b) s = .next { s with pc := s.pc + 3, st := .running })

/-- For all operands and states: JF is the cells [8, a, b]; when a is 0 the next state has pc the value of b, when a is
not 0 it has pc + 3; Running, all else unchanged. (R142) -/
def Obligations.JfJumpsExactlyOnZero : Prop :=
  (∀ a b, encode (.jf a b) = [8, encodeOperand a, encodeOperand b]) ∧
  ∀ (a b : Operand) (s : State),
    ((s.resolve a).toNat = 0 → exec (.jf a b) s = .next { s with pc := (s.resolve b).toNat, st := .running }) ∧
    ((s.resolve a).toNat ≠ 0 → exec (.jf a b) s = .next { s with pc := s.pc + 3, st := .running })

/-- For all operands and states: ADD is the cells [9, dst, a, b]; it answers the next state with (a + b) mod 32768,
computed exactly, in the destination register, pc + 4, Running, all else unchanged; a literal destination raises
InvalidDestination with that cell. (R150) -/
def Obligations.AddWritesTheSumModulo32768 : Prop :=
  (∀ dst a b, encode (.add dst a b) = [9, encodeOperand dst, encodeOperand a, encodeOperand b]) ∧
  (∀ (d : RegIdx) (a b : Operand) (s : State), ∃ v : Word,
    v.toNat = ((s.resolve a).toNat + (s.resolve b).toNat) % 32768 ∧
    exec (.add (.reg d) a b) s = .next { s with x := s.x.set d v, pc := s.pc + 4, st := .running }) ∧
  (∀ (w : Word) (a b : Operand) (s : State), exec (.add (.lit w) a b) s =
      .next { s with st := .faulted, term := .raised .invalidDestination, finfo := encodeOperand (.lit w) })

/-- For all operands and states: MULT is the cells [10, dst, a, b]; it answers the next state with the exact product mod
32768 in the destination register, pc + 4, Running, all else unchanged; a literal destination raises
InvalidDestination with that cell. (R151) -/
def Obligations.MultWritesTheProductModulo32768 : Prop :=
  (∀ dst a b, encode (.mult dst a b) = [10, encodeOperand dst, encodeOperand a, encodeOperand b]) ∧
  (∀ (d : RegIdx) (a b : Operand) (s : State), ∃ v : Word,
    v.toNat = ((s.resolve a).toNat * (s.resolve b).toNat) % 32768 ∧
    exec (.mult (.reg d) a b) s = .next { s with x := s.x.set d v, pc := s.pc + 4, st := .running }) ∧
  (∀ (w : Word) (a b : Operand) (s : State), exec (.mult (.lit w) a b) s =
      .next { s with st := .faulted, term := .raised .invalidDestination, finfo := encodeOperand (.lit w) })

/-- For all operands and states: MOD is the cells [11, dst, a, b]; with b not 0 it answers the next state with a mod b
in the destination register, pc + 4, Running, all else unchanged; with b = 0 it raises DivisionByZero(0); a literal
destination raises InvalidDestination with that cell. (R152) -/
def Obligations.ModWritesTheRemainderOrDividesByZero : Prop :=
  (∀ dst a b, encode (.mod dst a b) = [11, encodeOperand dst, encodeOperand a, encodeOperand b]) ∧
  (∀ (d : RegIdx) (a b : Operand) (s : State), (s.resolve b).toNat ≠ 0 → ∃ v : Word,
    v.toNat = (s.resolve a).toNat % (s.resolve b).toNat ∧
    exec (.mod (.reg d) a b) s = .next { s with x := s.x.set d v, pc := s.pc + 4, st := .running }) ∧
  (∀ (d : RegIdx) (a b : Operand) (s : State), (s.resolve b).toNat = 0 → exec (.mod (.reg d) a b) s =
    .next { s with st := .faulted, term := .raised .divisionByZero, finfo := 0 }) ∧
  (∀ (w : Word) (a b : Operand) (s : State), exec (.mod (.lit w) a b) s =
      .next { s with st := .faulted, term := .raised .invalidDestination, finfo := encodeOperand (.lit w) })

/-- For all operands and states: AND is the cells [12, dst, a, b]; it answers the next state with the Word whose bit k
is set exactly when bit k of both operands is, in the destination register, pc + 4, Running, all else unchanged; a
literal destination raises InvalidDestination with that cell. (R153) -/
def Obligations.AndWritesTheBitwiseAnd : Prop :=
  (∀ dst a b, encode (.and dst a b) = [12, encodeOperand dst, encodeOperand a, encodeOperand b]) ∧
  (∀ (d : RegIdx) (a b : Operand) (s : State), ∃ v : Word,
    (∀ k, v.getLsbD k = ((s.resolve a).getLsbD k && (s.resolve b).getLsbD k)) ∧
    exec (.and (.reg d) a b) s = .next { s with x := s.x.set d v, pc := s.pc + 4, st := .running }) ∧
  (∀ (w : Word) (a b : Operand) (s : State), exec (.and (.lit w) a b) s =
      .next { s with st := .faulted, term := .raised .invalidDestination, finfo := encodeOperand (.lit w) })

/-- For all operands and states: OR is the cells [13, dst, a, b]; it answers the next state with the Word whose bit k is
set exactly when bit k of some operand is, in the destination register, pc + 4, Running, all else unchanged; a
literal destination raises InvalidDestination with that cell. (R154) -/
def Obligations.OrWritesTheBitwiseOr : Prop :=
  (∀ dst a b, encode (.or dst a b) = [13, encodeOperand dst, encodeOperand a, encodeOperand b]) ∧
  (∀ (d : RegIdx) (a b : Operand) (s : State), ∃ v : Word,
    (∀ k, v.getLsbD k = ((s.resolve a).getLsbD k || (s.resolve b).getLsbD k)) ∧
    exec (.or (.reg d) a b) s = .next { s with x := s.x.set d v, pc := s.pc + 4, st := .running }) ∧
  (∀ (w : Word) (a b : Operand) (s : State), exec (.or (.lit w) a b) s =
      .next { s with st := .faulted, term := .raised .invalidDestination, finfo := encodeOperand (.lit w) })

/-- For all operands and states: NOT is the cells [14, dst, a]; it answers the next state with 32767 - a in the
destination register, pc + 3, Running, all else unchanged; a literal destination raises InvalidDestination with that
cell. (R155) -/
def Obligations.NotWritesTheFifteenBitComplement : Prop :=
  (∀ dst a, encode (.not dst a) = [14, encodeOperand dst, encodeOperand a]) ∧
  (∀ (d : RegIdx) (a : Operand) (s : State), ∃ v : Word, v.toNat = 32767 - (s.resolve a).toNat ∧
    exec (.not (.reg d) a) s = .next { s with x := s.x.set d v, pc := s.pc + 3, st := .running }) ∧
  (∀ (w : Word) (a : Operand) (s : State), exec (.not (.lit w) a) s =
      .next { s with st := .faulted, term := .raised .invalidDestination, finfo := encodeOperand (.lit w) })

/-- For all operands and states: RMEM is the cells [15, dst, b]; when the cell at address b is below 32768 it answers
the next state with that value in the destination register, pc + 3, Running, all else (memory too) unchanged; when
the cell is 32768 or more it raises InvalidWord with the cell; a literal destination raises InvalidDestination.
(R160) -/
def Obligations.RmemReadsAWordCellOrRaisesInvalidWord : Prop :=
  (∀ dst b, encode (.rmem dst b) = [15, encodeOperand dst, encodeOperand b]) ∧
  (∀ (d : RegIdx) (b : Operand) (s : State), (s.mem.read (s.resolve b).toNat).toNat < 32768 → ∃ v : Word,
    v.toNat = (s.mem.read (s.resolve b).toNat).toNat ∧
    exec (.rmem (.reg d) b) s = .next { s with x := s.x.set d v, pc := s.pc + 3, st := .running }) ∧
  (∀ (d : RegIdx) (b : Operand) (s : State), 32768 ≤ (s.mem.read (s.resolve b).toNat).toNat →
    exec (.rmem (.reg d) b) s =
      .next { s with st := .faulted, term := .raised .invalidWord, finfo := s.mem.read (s.resolve b).toNat }) ∧
  (∀ (w : Word) (b : Operand) (s : State), exec (.rmem (.lit w) b) s =
      .next { s with st := .faulted, term := .raised .invalidDestination, finfo := encodeOperand (.lit w) })

/-- For all operands and every state whose memory is in canonical form (kept by every step, see
InvariantIsKeptByEveryStep): WMEM is the cells [16, a, b]; it answers a next state in which only memory, pc (pc + 3)
and st (Running) may differ, the cell at address a, as operand a resolves in the state before, reads the value of b,
and every other address reads as before. (R161) -/
def Obligations.WmemWritesExactlyTheAddressedCell : Prop :=
  (∀ a b, encode (.wmem a b) = [16, encodeOperand a, encodeOperand b]) ∧
  ∀ (a b : Operand) (s : State), s.mem.wf = true → ∃ m : Memory,
    exec (.wmem a b) s = .next { s with mem := m, pc := s.pc + 3, st := .running } ∧
    (m.read (s.resolve a).toNat).toNat = (s.resolve b).toNat ∧
    ∀ p, p ≠ (s.resolve a).toNat → m.read p = s.mem.read p

/-- For all operands and states: CALL is the cells [17, a]; when pc + 2 is at most 32767 and the stack has room, it
answers the next state with pc + 2 on top of the stack, pc the value of a, Running, all else unchanged; when pc + 2
is above 32767 it raises AddressingFault(32768), whatever the stack; when pc + 2 is at most 32767 and the depth
equals a finite STACK_CAPACITY it raises StackOverflow(0). (R170) -/
def Obligations.CallPushesTheReturnAddressAndJumps : Prop :=
  (∀ a, encode (.call a) = [17, encodeOperand a]) ∧
  ∀ (a : Operand) (s : State),
    (s.pc + 2 ≤ 32767 → (∀ n, s.cfg.stackCapacity = some n → s.stack.length < n) → ∃ r : Word, r.toNat = s.pc + 2 ∧ exec (.call a) s =
      .next { s with stack := r :: s.stack, pc := (s.resolve a).toNat, st := .running }) ∧
    (32767 < s.pc + 2 → exec (.call a) s =
      .next { s with st := .faulted, term := .raised .addressingFault, finfo := 32768 }) ∧
    (s.pc + 2 ≤ 32767 → s.cfg.stackCapacity = some s.stack.length → exec (.call a) s =
      .next { s with st := .faulted, term := .raised .stackOverflow, finfo := 0 })

/-- For every state: RET is the cell [18]; with top entry r it answers the next state with that entry gone, pc = r,
Running, all else unchanged; with an empty stack it answers the next state with pc + 1, Halted, term RetEmptyStack,
all else unchanged, and a step() call whose fetch gives RET, in Ready or Running, returns Done(RET, Halted). (R171) -/
def Obligations.RetReturnsToTheTopEntryOrHalts : Prop :=
  encode .ret = [18] ∧
  ∀ s : State,
    (∀ r rest, s.stack = r :: rest → exec .ret s = .next { s with stack := rest, pc := r.toNat, st := .running }) ∧
    (s.stack = [] → ∃ t, t = { s with pc := s.pc + 1, st := .halted, term := .stopped .retEmptyStack } ∧
      exec .ret s = .next t ∧
      ∀ rest, s.active → s.pc ≤ 32767 → fetch s = .instr .ret rest → call .step s = .next (t, .done .ret .halted))

/-- For all operands and states: OUT is the cells [19, a]; it answers the next state in which the output trace has the
value of a appended, once and unchanged, pc + 2, Running, all else unchanged. (R180) -/
def Obligations.OutEmitsItsOperandOnce : Prop :=
  (∀ a, encode (.out a) = [19, encodeOperand a]) ∧
  ∀ (a : Operand) (s : State), exec (.out a) s =
    .next { s with out := s.out ++ [s.resolve a], pc := s.pc + 2, st := .running }

/-- For all operands and states: IN is the cells [20, dst]; with a register destination d it answers the next state with
st AwaitingInput, in_dst = d, all else (pc, registers, memory, stack) unchanged, in which a step() call is refused
without effect, and a step() call whose fetch gives that IN, in Ready or Running, returns Done(IN, AwaitingInput); a
literal destination raises InvalidDestination, so the engine does not suspend. (R181) -/
def Obligations.InLatchesItsDestinationAndWaits : Prop :=
  (∀ dst, encode (.inp dst) = [20, encodeOperand dst]) ∧
  (∀ (d : RegIdx) (s : State), ∃ t, t = { s with st := .awaitingInput, inDst := some d } ∧
    exec (.inp (.reg d)) s = .next t ∧ call .step t = .next (t, .refused) ∧
    ∀ rest, s.active → s.pc ≤ 32767 → fetch s = .instr (.inp (.reg d)) rest →
      call .step s = .next (t, .done .inp .awaitingInput)) ∧
  (∀ (w : Word) (s : State), exec (.inp (.lit w)) s =
      .next { s with st := .faulted, term := .raised .invalidDestination, finfo := encodeOperand (.lit w) })

/-- For every state: NOOP is the cell [21]; it answers the next state with pc + 1, Running, all else unchanged. (R191) -/
def Obligations.NoopOnlyAdvancesThePc : Prop :=
  encode .noop = [21] ∧
  ∀ s : State, exec .noop s = .next { s with pc := s.pc + 1, st := .running }

/-- For every Word c and state: in AwaitingInput with latched destination d the call supply(c) returns Accepted and the
state with x[d] = c, pc + 2, Running, all else unchanged; in Ready and Running it is refused and changes nothing; in
Halted and Faulted it returns Terminal(term) and changes nothing. (R182) -/
def Obligations.SupplyCompletesTheSuspendedIn : Prop :=
  ∀ (c : Word) (s : State),
    (∀ d, s.st = .awaitingInput → s.inDst = some d → call (.supply c) s =
      .next ({ s with x := s.x.set d c, pc := s.pc + 2, st := .running }, .accepted)) ∧
    (s.active → call (.supply c) s = .next (s, .refused)) ∧
    (s.ended → call (.supply c) s = .next (s, .terminal s.term))

/-- For every cell w and state: below 32768 it decodes to an operand that resolves to w; from 32768 to 32775 it decodes
to an operand that resolves to the content of register w - 32768; from 32776 it decodes to none.
(spec/40_step_and_operands.md §1, spec/30_encoding.md §2) -/
def Obligations.OperandCellsResolveByTheirValue : Prop :=
  ∀ (w : Cell) (s : State),
    (w.toNat < 32768 → ∃ o, decodeOperand w = some o ∧ (s.resolve o).toNat = w.toNat) ∧
    (∀ r : RegIdx, w.toNat = 32768 + r.val → ∃ o, decodeOperand w = some o ∧ s.resolve o = s.x[r]) ∧
    (32776 ≤ w.toNat → decodeOperand w = none)

/-- For every instruction (all 22, every literal and register in every operand position) and every list of cells after
it, decoding the encoded cells gives the instruction and leaves those cells. (spec/30_encoding.md §1,
spec/30_encoding.md §2, spec/30_encoding.md §3) -/
def Obligations.DecodingAnEncodedInstructionGivesItBack : Prop :=
  ∀ (i : Instr) (rest : List Cell), decode (encode i ++ rest) = .instr i rest

/-- For all cells, if the decoder answers an instruction and a rest, the cells are exactly the encoding of the
instruction followed by the rest: each instruction has one encoding and no bit is ignored. (spec/30_encoding.md §3,
spec/30_encoding.md §4) -/
def Obligations.EveryDecodedInstructionHasItsOneEncoding : Prop :=
  ∀ (cells : List Cell) (i : Instr) (rest : List Cell), decode cells = .instr i rest → cells = encode i ++ rest

/-- For any cells: with none it is PC exhausted; with an opcode cell above 21 it is UnsupportedOpcode of that cell; with
an opcode cell of a mnemonic m and fewer operand cells than the arity of m it is AddressingFault; else with a first
operand cell of 32776 or more it is InvalidOperand of that cell; else with a write target (SET, POP, EQ, GT, ADD,
MULT, MOD, AND, OR, NOT, RMEM, IN) holding a literal it is InvalidDestination of that cell; else it is an
instruction with mnemonic m whose cells are those read. (R79) -/
def Obligations.DecodingIsTotalInThePriorityOfTheSixCases : Prop :=
  classify [] = .pcExhausted ∧
  ∀ (op : Cell) (rest : List Cell),
    (21 < op.toNat → classify (op :: rest) = .unsupportedOpcode op) ∧
    ∀ m, opcode m = op →
      (rest.length < arity m → classify (op :: rest) = .addressingFault) ∧
      (∀ k, k < arity m → arity m ≤ rest.length → (∀ j, j < k → (rest.getD j 0).toNat < 32776) →
        32776 ≤ (rest.getD k 0).toNat → classify (op :: rest) = .invalidOperand (rest.getD k 0)) ∧
      (arity m ≤ rest.length → (∀ k, k < arity m → (rest.getD k 0).toNat < 32776) →
        (m.hasDestination = true → (rest.getD 0 0).toNat < 32768 →
          classify (op :: rest) = .invalidDestination (rest.getD 0 0)) ∧
        ((m.hasDestination = true → 32768 ≤ (rest.getD 0 0).toNat) → ∃ i, classify (op :: rest) = .decoded i ∧
          i.mnemonic = m ∧ encode i = op :: rest.take (arity m)))

/-- The cells of SET r0, 4; EQ r0, 5, 5; JT 1, 50; ADD r1, r0, 11; RMEM r2, 100; CALL 6; OUT r1; IN r0; HALT and NOOP,
written out from the spec's encodings, decode to those instructions. (spec/30_encoding.md §3,
spec/95_test_vectors.md §2) -/
def Obligations.SampleWordsDecodeAsTheSpecEncodesThem : Prop :=
  decode [1, 32768, 4] = .instr (.set (.reg 0) (.lit 4)) [] ∧
  decode [4, 32768, 5, 5] = .instr (.eq (.reg 0) (.lit 5) (.lit 5)) [] ∧
  decode [7, 1, 50] = .instr (.jt (.lit 1) (.lit 50)) [] ∧
  decode [9, 32769, 32768, 11] = .instr (.add (.reg 1) (.reg 0) (.lit 11)) [] ∧
  decode [15, 32770, 100] = .instr (.rmem (.reg 2) (.lit 100)) [] ∧
  decode [17, 6] = .instr (.call (.lit 6)) [] ∧
  decode [19, 32769] = .instr (.out (.reg 1)) [] ∧
  decode [20, 32768] = .instr (.inp (.reg 0)) [] ∧
  decode [0] = .instr .halt [] ∧ decode [21] = .instr .noop []

/-- For every state in Ready or Running with pc at most 32767: if the cells at pc decode to an instruction i, then the
step is exec i on that state (the pc still addresses the opcode cell, nothing is added around exec), and the step()
call returns Done(op, st) of the state left, or Fault(term, finfo) if it is Faulted. (spec/40_step_and_operands.md
§2) -/
def Obligations.StepRunsTheDecodedInstruction : Prop :=
  ∀ (s : State) (i : Instr) (rest : List Cell), s.active → s.pc ≤ 32767 → fetch s = .instr i rest →
    step s = exec i s ∧
    ∀ t, exec i s = .next t → call .step s =
      .next (t, if t.st = .faulted then .fault t.term t.finfo else .done i.mnemonic t.st)

/-- For every instruction and every state in Ready or Running: if the encoded cells lie at pc, pc + 1, ... inside
memory, the step is exec of the instruction on that state. (spec/40_step_and_operands.md §2, spec/30_encoding.md §1) -/
def Obligations.StepRunsTheInstructionWhoseCellsStandAtThePc : Prop :=
  ∀ (i : Instr) (s : State), s.active → s.pc + (encode i).length ≤ 32768 →
    (∀ k, k < (encode i).length → s.mem.read (s.pc + k) = (encode i).getD k 0) → step s = exec i s

/-- For every state in Ready or Running with pc = 32768: the step() call returns Exhausted and the state with st Halted
and term PcExhausted, all else (pc too) unchanged; the step is that state. (R99) -/
def Obligations.StepAtTheExhaustedPcHalts : Prop :=
  ∀ s : State, s.active → s.pc = 32768 →
    call .step s = .next ({ s with st := .halted, term := .stopped .pcExhausted }, .exhausted) ∧
    step s = .next { s with st := .halted, term := .stopped .pcExhausted }

/-- For every state in Ready or Running with pc at most 32767: an opcode cell above 21 makes the step raise
UnsupportedOpcode with that cell; an opcode cell of a mnemonic m with pc + arity(m) above 32767 makes it raise
AddressingFault(32768); each fault changes only st, term and finfo. (spec/40_step_and_operands.md §2,
spec/60_exceptions.md §1) -/
def Obligations.FetchFaultsOnUnsupportedOpcodesAndMissingOperands : Prop :=
  ∀ s : State, s.active → s.pc ≤ 32767 →
    (21 < (s.mem.read s.pc).toNat → step s =
      .next { s with st := .faulted, term := .raised .unsupportedOpcode, finfo := s.mem.read s.pc }) ∧
    (∀ m, opcode m = s.mem.read s.pc → 32767 < s.pc + arity m → step s =
      .next { s with st := .faulted, term := .raised .addressingFault, finfo := 32768 })

/-- For every state in Ready or Running whose instruction (mnemonic m at pc) lies inside memory: if the k-th operand
cell is the first of 32776 or more, the step raises InvalidOperand with that cell; if none is and m has a write
target whose cell is below 32768, the step raises InvalidDestination with that cell; each fault changes only st,
term and finfo. (spec/40_step_and_operands.md §2 (R96), spec/60_exceptions.md §4) -/
def Obligations.OperandChecksPutInvalidOperandBeforeInvalidDestination : Prop :=
  ∀ (s : State) (m : Mnemonic), s.active → opcode m = s.mem.read s.pc → s.pc + arity m ≤ 32767 →
    (∀ k, 1 ≤ k → k ≤ arity m → (∀ j, 1 ≤ j → j < k → (s.mem.read (s.pc + j)).toNat < 32776) →
      32776 ≤ (s.mem.read (s.pc + k)).toNat → step s =
        .next { s with st := .faulted, term := .raised .invalidOperand, finfo := s.mem.read (s.pc + k) }) ∧
    ((∀ j, 1 ≤ j → j ≤ arity m → (s.mem.read (s.pc + j)).toNat < 32776) → m.hasDestination = true →
      (s.mem.read (s.pc + 1)).toNat < 32768 → step s =
        .next { s with st := .faulted, term := .raised .invalidDestination, finfo := s.mem.read (s.pc + 1) })

/-- For every state in Halted or Faulted: the calls step() and supply(c) return Terminal(term) and leave the state as it
is, the machine's step leaves it as it is, and so does a run of any number of steps. (spec/10_state.md §6,
notes/assumptions/2.md) -/
def Obligations.EndedMachinesAbsorbEveryCall : Prop :=
  ∀ s : State, s.ended →
    (∀ c, call c s = .next (s, .terminal s.term)) ∧ ∀ k, Sys2Proof.core.run k s = .next s

/-- For every state: a step() call in AwaitingInput and a supply call in Ready or Running return
Refused(IOProtocolViolation) and leave the state as it is; in Halted and Faulted both return Terminal(term) and
leave it as it is. (R206) -/
def Obligations.CallsAgainstTheProtocolAreRefusedWithoutEffect : Prop :=
  ∀ s : State,
    (s.st = .awaitingInput → call .step s = .next (s, .refused)) ∧
    (s.active → ∀ c, call (.supply c) s = .next (s, .refused)) ∧
    (s.ended → ∀ c, call c s = .next (s, .terminal s.term))

/-- MODEL'S CHOICE (log 3, DESIGN CHOICE): while AwaitingInput with an announced code c the step is the state after the
call supply(c) with c taken off the list; in every other case it is the state after the call step().
(notes/assumptions/3.md, spec/60_exceptions.md §7) -/
def Obligations.StepIsTheNextCallOfAProtocolKeepingHost : Prop :=
  ∀ s : State,
    (∀ c rest, s.st = .awaitingInput → s.supplies = c :: rest →
      step s = stateOf (call (.supply c) { s with supplies := rest })) ∧
    (s.st = .awaitingInput → s.supplies = [] → step s = stateOf (call .step s)) ∧
    (s.st ≠ .awaitingInput → step s = stateOf (call .step s))

/-- For every state: the step from it with st Ready and the step from it with st Running have the same outcome, the same
next state included. (spec/40_step_and_operands.md §2 (R101)) -/
def Obligations.ReadyAndRunningBehaveAlike : Prop :=
  ∀ s : State, step { s with st := .ready } = step { s with st := .running }

/-- State.reset meets State.Inv: memory in canonical form, pc at most 32768, term fitting st, finfo 0, no pending IN,
stack within capacity. (spec/10_state.md §9) -/
def Obligations.InvariantHoldsAtReset : Prop :=
  State.reset.Inv

/-- For every state that meets State.Inv (memory canonical, pc in 0..32768, term as R32 says for st, finfo 0 unless
Faulted, the pending IN of AwaitingInput at pc with its latched destination, stack depth within STACK_CAPACITY), if
the step answers a next state, that state meets it. (spec/10_state.md §3, spec/10_state.md §4, spec/10_state.md §5,
spec/10_state.md §6) -/
def Obligations.InvariantIsKeptByEveryStep : Prop :=
  ∀ s t : State, s.Inv → step s = .next t → t.Inv

/-- For every instruction and every state exec answers a next state, so it never answers a fault or a refusal of the
model. MODEL'S CHOICE: that exec is defined on states no step gives it (log 4, DESIGN CHOICE), and that the spec's
faults are next states (log 2, DESIGN CHOICE). (spec/60_exceptions.md §1, spec/60_exceptions.md §2,
notes/assumptions/2.md, notes/assumptions/4.md) -/
def Obligations.EveryInstructionHasANextState : Prop :=
  ∀ (i : Instr) (s : State), ∃ t, exec i s = .next t

/-- For every state that meets State.Inv the step answers a next state: neither of the model's own faults nor a refusal
can happen. MODEL'S CHOICE: that the spec's faults, and calls it answers Terminal or Refused, are next states (log
2, DESIGN CHOICE), and which states the model's own faults stop (log 5, DESIGN CHOICE). (spec/60_exceptions.md §4,
notes/assumptions/2.md, notes/assumptions/5.md) -/
def Obligations.StepNeverStopsUnderTheInvariant : Prop :=
  ∀ s : State, s.Inv → ∃ t, step s = .next t

/-- For every build, every image of at most 32768 cells and every list of codes the host will supply: the load answers a
state from which a run of any number of steps answers a next state, and that state meets State.Inv. MODEL'S CHOICE:
that a run goes on, unchanged, past Halted and Faulted (log 2, DESIGN CHOICE), and that the host's codes are a list
in State which the step takes from (log 3, DESIGN CHOICE). (spec/20_memory.md §6, spec/70_reset_and_hazards.md §1,
spec/60_exceptions.md §8, notes/assumptions/2.md, notes/assumptions/3.md) -/
def Obligations.LoadedImagesRunSafelyWithTheInvariantForEver : Prop :=
  ∀ (cfg : Config) (image : List Cell) (codes : List Word), image.length ≤ 32768 → ∃ b, boot cfg image = .next b ∧
    ∀ k, ∃ t, Sys2Proof.core.run k { b with supplies := codes } = .next t ∧ t.Inv

/-- State.reset: every cell reads 0, every register is 0, pc 0, stack empty, st Ready, term None, finfo 0, in_dst none.
(The unbounded stack, the empty output and the empty list of announced codes are not in the rule's table and are not
claimed here.) (spec/10_state.md §9) -/
def Obligations.ResetLeavesTheValuesOfTheResetTable : Prop :=
  (∀ p, State.reset.mem.read p = 0) ∧ (∀ r : RegIdx, State.reset.x[r] = 0) ∧ State.reset.pc = 0 ∧
    State.reset.stack = [] ∧ State.reset.st = .ready ∧ State.reset.term = .none ∧ State.reset.finfo = 0 ∧
    State.reset.inDst = none

/-- For every build and every image of n cells, n at most 32768: the load answers the state that differs from reset only
in memory and the build's parameter, cell k reads the image's cell k for k < n, unmodified, and reads 0 from n on;
an image of more than 32768 cells is refused. MODEL'S CHOICE: that last clause (log 12, DESIGN CHOICE; the spec
leaves the oversize policy to the host), and that the load also sets the build's parameter, held in State (log 6,
DESIGN CHOICE). (spec/20_memory.md §6, spec/70_reset_and_hazards.md §1, notes/assumptions/6.md,
notes/assumptions/12.md) -/
def Obligations.LoadPlacesTheImageUnmodified : Prop :=
  ∀ (cfg : Config) (image : List Cell),
    (image.length ≤ 32768 → ∃ m : Memory, boot cfg image = .next { State.reset with mem := m, cfg := cfg } ∧
      ∀ k, m.read k = image.getD k 0) ∧
    (32768 < image.length → boot cfg image = .refused .imageTooLong)

/-- For all memories in canonical form (MODEL'S CHOICE, log 1, DESIGN CHOICE): if every address reads the same in both,
they are the same list. (spec/10_state.md §5, notes/assumptions/1.md) -/
def Obligations.MemoriesThatReadAlikeAreEqual : Prop :=
  ∀ m m' : Memory, m.wf = true → m'.wf = true → (∀ p, m.read p = m'.read p) → m = m'

/-- For every step with a next state t from s: from Halted and Faulted t is s; from AwaitingInput t is s or t is
Running; from Ready and Running, t is AwaitingInput exactly when the instruction at pc is an IN with a register
destination, Halted exactly when pc is exhausted or the instruction is HALT or a RET on an empty stack, and never
Ready. MODEL'S CHOICE: that a step in Halted or Faulted is the same state (log 2, DESIGN CHOICE), and that a step in
AwaitingInput is the supply of an announced code or no change (log 3, DESIGN CHOICE). (spec/10_state.md §6,
notes/assumptions/2.md, notes/assumptions/3.md) -/
def Obligations.ExecutionStateFollowsTheTransitionTable : Prop :=
  ∀ s t : State, step s = .next t →
    (s.ended → t = s) ∧
    (s.st = .awaitingInput → t = s ∨ t.st = .running) ∧
    (s.active → t.st ≠ .ready ∧
      (t.st = .awaitingInput ↔ ∃ d rest, fetch s = .instr (.inp (.reg d)) rest) ∧
      (t.st = .halted ↔ s.pc = 32768 ∨ (∃ rest, fetch s = .instr .halt rest) ∨
        (∃ rest, fetch s = .instr .ret rest ∧ s.stack = [])))

/-- For every step with a next state t from a state s that is not Faulted: if t is Faulted then t differs from s only in
st, term and finfo, and term is a fault code. So registers, memory, stack, pc, in_dst and the output are as before.
(spec/60_exceptions.md §2, spec/40_step_and_operands.md §2) -/
def Obligations.FaultsChangeOnlyTheStatusElements : Prop :=
  ∀ s t : State, s.st ≠ .faulted → step s = .next t → t.st = .faulted →
    ∃ e info, t = { s with st := .faulted, term := .raised e, finfo := info }

/-- For every instruction and state with a next state t: every register that is not the instruction's write-target
operand holds its old value; PUSH, JMP, JT, JF, WMEM, CALL, RET, OUT, HALT, NOOP have no write target and leave all
registers unchanged, and IN leaves them unchanged until its supply. (spec/10_state.md §2) -/
def Obligations.OnlyTheDestinationRegisterIsWritten : Prop :=
  ∀ (i : Instr) (s t : State), exec i s = .next t →
    (∀ r : RegIdx, i.destination ≠ some (.reg r) → t.x[r] = s.x[r]) ∧
    (∀ dst, i = .inp dst → t.x = s.x)

/-- For every instruction that is not WMEM (register and stack forms, jumps, calls, output and input alike) and every
state with a next state t: every address reads as before. (spec/20_memory.md §1) -/
def Obligations.OnlyWmemChangesMemory : Prop :=
  ∀ (i : Instr) (s t : State), exec i s = .next t → (∀ a b, i ≠ .wmem a b) → ∀ p, t.mem.read p = s.mem.read p

/-- For every instruction and state with a next state t: if t is Running, then for PUSH and CALL the stack of t is the
old one with one entry on top, for POP and RET the old stack is that of t with one entry on top, and for every other
instruction the stack is unchanged; if t is not Running (a fault, a halt, an IN), the stack is unchanged.
(spec/10_state.md §4) -/
def Obligations.OnlyStackInstructionsChangeTheStack : Prop :=
  ∀ (i : Instr) (s t : State), exec i s = .next t →
    (t.st = .running → (i.mnemonic = .push ∨ i.mnemonic = .call → ∃ v, t.stack = v :: s.stack) ∧
      (i.mnemonic = .pop ∨ i.mnemonic = .ret → ∃ v, s.stack = v :: t.stack) ∧
      (i.mnemonic ∉ [.push, .call, .pop, .ret] → t.stack = s.stack)) ∧
    (t.st ≠ .running → t.stack = s.stack)

/-- For every instruction and state with a next state t: if the instruction is OUT a, the output trace of t is the old
one with the value of a appended; otherwise it is the old one. (spec/60_exceptions.md §7) -/
def Obligations.OnlyOutEmits : Prop :=
  ∀ (i : Instr) (s t : State), exec i s = .next t →
    (∀ a, i = .out a → t.out = s.out ++ [s.resolve a]) ∧ ((∀ a, i ≠ .out a) → t.out = s.out)

/-- For every instruction and state with a next state t: the build's parameter and the announced codes are unchanged;
in_dst is unchanged unless the instruction is IN; if t is Running or AwaitingInput, term and finfo are unchanged; if
t is Halted, finfo is unchanged and term is a normal termination; if t is Faulted, term is a fault; and the
instruction leaves st other than Ready. MODEL'S CHOICE: the clauses on the build's parameter (held in State and
written by no instruction, log 6, DESIGN CHOICE) and on the announced codes (the model's own list, log 3, DESIGN
CHOICE). (spec/10_state.md §6, notes/assumptions/3.md, notes/assumptions/6.md) -/
def Obligations.StatusElementsChangeOnlyAtAnEndOrAnIn : Prop :=
  ∀ (i : Instr) (s t : State), exec i s = .next t →
    t.cfg = s.cfg ∧ t.supplies = s.supplies ∧ (i.mnemonic ≠ .inp → t.inDst = s.inDst) ∧ t.st ≠ .ready ∧
    (t.st = .running ∨ t.st = .awaitingInput → t.term = s.term ∧ t.finfo = s.finfo) ∧
    (t.st = .halted → t.finfo = s.finfo ∧ ∃ r, t.term = .stopped r) ∧ (t.st = .faulted → ∃ e, t.term = .raised e)

/-- For every instruction and state with a Running next state t: pc is pc + 1 + arity, or the instruction is JMP, JT,
JF, CALL or RET and pc is some address 0..32767; a fault or an IN leaves pc unchanged. (spec/10_state.md §3) -/
def Obligations.ThePcGoesToTheCursorOrToAWordTarget : Prop :=
  ∀ (i : Instr) (s t : State), exec i s = .next t →
    (t.st = .running → t.pc = s.pc + 1 + arity i.mnemonic ∨
      (i.mnemonic ∈ [.jmp, .jt, .jf, .call, .ret] ∧ t.pc ≤ 32767)) ∧
    (t.st = .faulted ∨ t.st = .awaitingInput → t.pc = s.pc)

/-- For every instruction and two states that differ only in st, term, finfo and in_dst: exec answers next states with
the same memory, registers, pc, stack, output and st. (spec/10_state.md §7) -/
def Obligations.NoInstructionReadsTheStatusElements : Prop :=
  ∀ (i : Instr) (s : State) (st : ExecState) (term : Term) (finfo : Cell) (d : Option RegIdx),
    ∃ t t', exec i s = .next t ∧ exec i { s with st := st, term := term, finfo := finfo, inDst := d } = .next t' ∧
      t'.mem = t.mem ∧ t'.x = t.x ∧ t'.pc = t.pc ∧ t'.stack = t.stack ∧ t'.out = t.out ∧ t'.st = t.st

/-- For every state with memory in canonical form and every step with a next state t: each address that reads 32768 or
more in t read the same before. So a run never creates a register reference or an invalid cell.
(spec/45_memory_access.md (R161, corner cases)) -/
def Obligations.NoStepCreatesACellThatIsNoWord : Prop :=
  ∀ s t : State, s.mem.wf = true → step s = .next t →
    ∀ p, 32768 ≤ (t.mem.read p).toNat → t.mem.read p = s.mem.read p

/-- For every state in Ready or Running with canonical memory whose instruction at pc is a WMEM to the address pc + 3:
the step answers a next state t with pc + 3, and the step after it raises UnsupportedOpcode with the stored value if
that is above 21, is a NOOP if it is 21, and halts if it is 0, whatever stood there before. (spec/20_memory.md §8,
spec/70_reset_and_hazards.md §3) -/
def Obligations.AStoredCellIsFetchedByTheVeryNextStep : Prop :=
  ∀ (s : State) (a b : Operand) (rest : List Cell), s.active → s.mem.wf = true →
    fetch s = .instr (.wmem a b) rest → (s.resolve a).toNat = s.pc + 3 → ∃ t, step s = .next t ∧ t.pc = s.pc + 3 ∧
      (21 < (s.resolve b).toNat → step t =
        .next { t with st := .faulted, term := .raised .unsupportedOpcode, finfo := zext16 (s.resolve b) }) ∧
      ((s.resolve b).toNat = 21 → step t = .next { t with pc := s.pc + 4 }) ∧
      ((s.resolve b).toNat = 0 → step t =
        .next { t with pc := s.pc + 4, st := .halted, term := .stopped .haltInstruction })

/-- For every operand, register and state whose stack has room: PUSH a and then POP r answer next states, and the last
is the first state with x[r] the value of a, pc + 4 and Running. (spec/41_data_movement.md (R121, R122),
spec/95_test_vectors.md §1) -/
def Obligations.PushThenPopGivesTheValueBack : Prop :=
  ∀ (a : Operand) (d : RegIdx) (s : State), (∀ n, s.cfg.stackCapacity = some n → s.stack.length < n) →
    ∃ t, exec (.push a) s = .next t ∧ exec (.pop (.reg d)) t =
      .next { s with x := s.x.set d (s.resolve a), pc := s.pc + 4, st := .running }

/-- For every operand and state whose stack has room and with pc + 2 at most 32767: CALL a answers a next state t with
pc the value of a, and RET at t answers the first state with pc + 2 and Running. (spec/46_call_return.md (R170,
R171), spec/95_test_vectors.md §1) -/
def Obligations.CallThenRetReturnsAfterTheCall : Prop :=
  ∀ (a : Operand) (s : State), s.pc + 2 ≤ 32767 → (∀ n, s.cfg.stackCapacity = some n → s.stack.length < n) →
    ∃ t, exec (.call a) s = .next t ∧ t.pc = (s.resolve a).toNat ∧
      exec .ret t = .next { s with pc := s.pc + 2, st := .running }

/-- For every state in Ready or Running with the cells of IN r, OUT r at pc inside memory and c the next announced code:
three steps of the machine end in the first state with x[r] = c, c appended to the output, pc + 4, Running, in_dst =
r and the code taken off the list. (spec/47_io.md (R180 to R182), spec/95_test_vectors.md §1,
notes/assumptions/3.md) -/
def Obligations.AnInputFollowedByItsOutputEchoesTheCode : Prop :=
  ∀ (s : State) (r : RegIdx) (c : Word) (rest : List Word), s.active → s.pc + 3 ≤ 32767 → s.mem.read s.pc = 20 →
    s.mem.read (s.pc + 1) = encodeOperand (.reg r) → s.mem.read (s.pc + 2) = 19 →
    s.mem.read (s.pc + 3) = encodeOperand (.reg r) → s.supplies = c :: rest →
    Sys2Proof.core.run 3 s = .next { s with
      x := s.x.set r c, out := s.out ++ [c], pc := s.pc + 4, st := .running, inDst := some r, supplies := rest }

/-- For every register, Word k, literal m of value (32768 - k) mod 32768 and state: ADD d, a, m answers the next state
in which the destination v satisfies (v + k) mod 32768 = a, pc + 4, Running, all else unchanged; where k is at most
a, v is a - k. (spec/44_alu.md §3) -/
def Obligations.AddingTheComplementSubtracts : Prop :=
  ∀ (d : RegIdx) (a : Operand) (k m : Word) (s : State), m.toNat = (32768 - k.toNat) % 32768 → ∃ v : Word,
    exec (.add (.reg d) a (.lit m)) s = .next { s with x := s.x.set d v, pc := s.pc + 4, st := .running } ∧
    (v.toNat + k.toNat) % 32768 = (s.resolve a).toNat ∧
    (k.toNat ≤ (s.resolve a).toNat → v.toNat = (s.resolve a).toNat - k.toNat)
end

