-- ==== Sys2Proof/Laws/Decode.lean ====
section
/-! SUPPORT. The small laws of decoding: operands and opcode cells read back what the encoder wrote. -/

namespace Sys2Proof

theorem toNat_zext16 (v : Word) : (zext16 v).toNat = v.toNat := by
  have := v.isLt
  simp only [zext16, BitVec.toNat_setWidth]
  omega

theorem low15_zext16 (v : Word) : low15 (zext16 v) = v := by
  apply BitVec.eq_of_toNat_eq
  have := v.isLt
  simp only [low15, zext16, BitVec.toNat_setWidth]
  omega

theorem zext16_low15 {w : Cell} (h : w.toNat < 32768) : zext16 (low15 w) = w := by
  apply BitVec.eq_of_toNat_eq
  simp only [low15, zext16, BitVec.toNat_setWidth]
  omega

theorem toNat_encodeReg (r : RegIdx) : (encodeOperand (.reg r)).toNat = 32768 + r.val := by
  have := r.isLt
  simp only [encodeOperand, BitVec.toNat_ofNat]
  omega

/-- The operand decoder reads back every operand the encoder writes (R73). -/
@[simp] theorem decodeOperand_encodeOperand (o : Operand) : decodeOperand (encodeOperand o) = some o := by
  cases o with
  | lit v =>
    have hv : (encodeOperand (.lit v)).toNat = v.toNat := toNat_zext16 v
    have := v.isLt
    rw [decodeOperand, if_pos (by omega)]
    simp [encodeOperand, low15_zext16]
  | reg r =>
    have hr := toNat_encodeReg r
    have := r.isLt
    rw [decodeOperand, if_neg (by omega), dif_pos (by omega)]
    simp [hr]

/-- A cell is the cell of at most one operand. -/
theorem encodeOperand_of_decodeOperand {w : Cell} {o : Operand} (h : decodeOperand w = some o) :
    encodeOperand o = w := by
  simp only [decodeOperand] at h
  split at h
  · obtain rfl := Option.some.inj h
    exact zext16_low15 ‹_›
  · split at h
    · obtain rfl := Option.some.inj h
      apply BitVec.eq_of_toNat_eq
      rw [toNat_encodeReg]
      simp only
      omega
    · cases h

/-- The operand decoder refuses exactly the invalid cells of R73. -/
theorem decodeOperand_eq_none {w : Cell} : decodeOperand w = none ↔ 32776 ≤ w.toNat := by
  simp only [decodeOperand]
  split
  · simp; omega
  · split
    · simp; omega
    · simp; omega

/-- The opcode cells are told apart (R76). -/
@[simp] theorem mnemonicOf_opcode (m : Mnemonic) : mnemonicOf (opcode m) = some m := by cases m <;> decide

theorem opcode_of_mnemonicOf {c : Cell} {m : Mnemonic} (h : mnemonicOf c = some m) : opcode m = c := by
  simpa using List.find?_some h

theorem arity_le_three (m : Mnemonic) : arity m ≤ 3 := by cases m <;> decide

end Sys2Proof
end

