-- ==== Sys2Proof/Laws/Memory.lean ====
section
/-! SUPPORT. The laws of memory: read after write, and that every memory operation keeps the canonical form. -/

namespace Sys2Proof.Machine

@[simp] theorem Memory.read_nil (p : Nat) : Memory.read [] p = 0 := rfl

@[simp] theorem Memory.read_cons (a : Nat) (v : Cell) (m : Memory) (p : Nat) :
    Memory.read ((a, v) :: m) p = if a = p then v else Memory.read m p := rfl

/-- The canonical form of a non-empty memory, as propositions. -/
theorem Memory.wfFrom_cons {lo a : Nat} {v : Cell} {m : Memory} :
    Memory.wfFrom lo ((a, v) :: m) = true ↔ lo ≤ a ∧ a < 32768 ∧ v ≠ 0 ∧ Memory.wfFrom (a + 1) m = true := by
  simp [Memory.wfFrom, and_assoc]

theorem Memory.wfFrom_mono {m : Memory} {lo lo' : Nat} (h : Memory.wfFrom lo m = true) (hl : lo' ≤ lo) :
    Memory.wfFrom lo' m = true := by
  cases m with
  | nil => rfl
  | cons c m =>
    obtain ⟨h1, h2⟩ := Memory.wfFrom_cons.mp h
    exact Memory.wfFrom_cons.mpr ⟨hl.trans h1, h2⟩

/-- In canonical form no address below the bound is listed. -/
theorem Memory.read_below {m : Memory} {lo p : Nat} (h : Memory.wfFrom lo m = true) (hp : p < lo) : m.read p = 0 := by
  induction m generalizing lo with
  | nil => rfl
  | cons c m ih =>
    obtain ⟨h1, -, -, h4⟩ := Memory.wfFrom_cons.mp h
    have hne : c.1 ≠ p := by omega
    simp [Memory.read, hne, ih h4 (by omega)]

theorem Memory.read_consCell {m : Memory} {p : Nat} (h : m.read p = 0) (v : Cell) (q : Nat) :
    (Memory.consCell p v m).read q = if p = q then v else m.read q := by
  rw [Memory.consCell]
  split
  · rename_i hv
    by_cases hq : p = q
    · subst hq hv; simp [h]
    · simp [hq]
  · rfl

theorem Memory.wfFrom_consCell {m : Memory} {lo p : Nat} (hlo : lo ≤ p) (hp : p < 32768)
    (h : Memory.wfFrom (p + 1) m = true) (v : Cell) : Memory.wfFrom lo (Memory.consCell p v m) = true := by
  rw [Memory.consCell]
  split
  · exact Memory.wfFrom_mono h (by omega)
  · exact Memory.wfFrom_cons.mpr ⟨hlo, hp, ‹_›, h⟩

/-- Read after write, at any two addresses, in canonical form. -/
theorem Memory.read_write_from {m : Memory} {lo : Nat} (h : Memory.wfFrom lo m = true) (p q : Nat) (v : Cell) :
    (m.write p v).read q = if p = q then v else m.read q := by
  induction m generalizing lo with
  | nil => exact Memory.read_consCell rfl v q
  | cons c m ih =>
    obtain ⟨a, w⟩ := c
    obtain ⟨h1, h2, h3, h4⟩ := Memory.wfFrom_cons.mp h
    rw [Memory.write]
    split
    · rename_i hpa
      exact Memory.read_consCell (Memory.read_below (Memory.wfFrom_cons.mpr ⟨le_refl a, h2, h3, h4⟩) hpa) v q
    · split
      · rename_i hpa
        subst hpa
        rw [Memory.read_consCell (Memory.read_below h4 (Nat.lt_succ_self p))]
        by_cases hq : p = q <;> simp [hq]
      · rename_i hpa
        rw [Memory.read_cons, Memory.read_cons, ih h4]
        by_cases haq : a = q
        · have hpq : p ≠ q := by omega
          simp [haq, hpq]
        · simp [haq]

theorem Memory.read_write {m : Memory} (h : m.wf = true) (p q : Nat) (v : Cell) :
    (m.write p v).read q = if p = q then v else m.read q :=
  Memory.read_write_from h p q v

/-- A write inside memory keeps the canonical form. -/
theorem Memory.wfFrom_write {m : Memory} {lo p : Nat} (h : Memory.wfFrom lo m = true) (hlo : lo ≤ p) (hp : p < 32768)
    (v : Cell) : Memory.wfFrom lo (m.write p v) = true := by
  induction m generalizing lo with
  | nil => exact Memory.wfFrom_consCell hlo hp rfl v
  | cons c m ih =>
    obtain ⟨a, w⟩ := c
    obtain ⟨h1, h2, h3, h4⟩ := Memory.wfFrom_cons.mp h
    rw [Memory.write]
    split
    · exact Memory.wfFrom_consCell hlo hp (Memory.wfFrom_cons.mpr ⟨by omega, h2, h3, h4⟩) v
    · split
      · rename_i hpa
        subst hpa
        exact Memory.wfFrom_consCell hlo hp h4 v
      · exact Memory.wfFrom_cons.mpr ⟨h1, h2, h3, ih h4 (by omega)⟩

theorem Memory.wf_write {m : Memory} (h : m.wf = true) {p : Nat} (hp : p < 32768) (v : Cell) :
    (m.write p v).wf = true :=
  Memory.wfFrom_write h (Nat.zero_le p) hp v

/-- A stored Word keeps the canonical form: its address is a Word (R57). -/
theorem State.wf_storeWord {s : State} (h : s.mem.wf = true) (a v : Word) : (s.storeWord a v).mem.wf = true :=
  Memory.wf_write h (by have := a.isLt; omega) _

/-- Placing cells keeps the canonical form. -/
theorem Memory.wf_place {m : Memory} (h : m.wf = true) (p : Nat) (cs : List Cell) : (m.place p cs).wf = true := by
  induction cs generalizing m p with
  | nil => exact h
  | cons c cs ih =>
    simp only [Memory.place]
    split
    · exact ih (Memory.wf_write h (by omega) c) (p + 1)
    · exact h

/-- The memory of an image is in canonical form. -/
theorem Memory.wfFrom_ofCells (k : Nat) (cs : List Cell) (h : k + cs.length ≤ 32768) :
    Memory.wfFrom k (Memory.ofCells k cs) = true := by
  induction cs generalizing k with
  | nil => rfl
  | cons c cs ih =>
    rw [List.length_cons] at h
    exact Memory.wfFrom_consCell (le_refl k) (by omega) (ih (k + 1) (by omega)) c

/-- Reading an image's memory gives the image's cells, and 0 outside them (R40, R59). -/
theorem Memory.read_ofCells (k : Nat) (cs : List Cell) (p : Nat) :
    (Memory.ofCells k cs).read p = if k ≤ p then cs.getD (p - k) 0 else 0 := by
  induction cs generalizing k p with
  | nil => simp [Memory.ofCells]
  | cons c cs ih =>
    have hk : (Memory.ofCells (k + 1) cs).read k = 0 := by simp [ih]
    rw [Memory.ofCells, Memory.read_consCell hk, ih]
    rcases Nat.lt_trichotomy k p with h | h | h
    · obtain ⟨d, rfl⟩ : ∃ d, p = k + 1 + d := ⟨p - (k + 1), by omega⟩
      rw [if_neg (by omega), if_pos (by omega), if_pos (by omega), show k + 1 + d - k = d + 1 by omega,
        show k + 1 + d - (k + 1) = d by omega, List.getD_cons_succ]
    · simp [h]
    · rw [if_neg (by omega), if_neg (by omega), if_neg (by omega)]

theorem State.reset_mem_wf : State.reset.mem.wf = true := rfl

end Sys2Proof.Machine
end

