-- ==== Sys2Proof/Laws/State.lean ====
section
/-! SUPPORT. One lemma per field per named update of State, so that no proof unfolds a record update, and the reads of a
register after a write. -/

namespace Sys2Proof.Machine

variable (s : State)

@[simp] theorem State.storeWord_mem (a v : Word) : (s.storeWord a v).mem = s.mem.write a.toNat (zext16 v) := rfl
@[simp] theorem State.storeWord_x (a v : Word) : (s.storeWord a v).x = s.x := rfl
@[simp] theorem State.storeWord_pc (a v : Word) : (s.storeWord a v).pc = s.pc := rfl
@[simp] theorem State.storeWord_stack (a v : Word) : (s.storeWord a v).stack = s.stack := rfl
@[simp] theorem State.storeWord_st (a v : Word) : (s.storeWord a v).st = s.st := rfl
@[simp] theorem State.storeWord_term (a v : Word) : (s.storeWord a v).term = s.term := rfl
@[simp] theorem State.storeWord_finfo (a v : Word) : (s.storeWord a v).finfo = s.finfo := rfl
@[simp] theorem State.storeWord_inDst (a v : Word) : (s.storeWord a v).inDst = s.inDst := rfl
@[simp] theorem State.storeWord_cfg (a v : Word) : (s.storeWord a v).cfg = s.cfg := rfl
@[simp] theorem State.storeWord_out (a v : Word) : (s.storeWord a v).out = s.out := rfl
@[simp] theorem State.storeWord_supplies (a v : Word) : (s.storeWord a v).supplies = s.supplies := rfl

@[simp] theorem State.writeReg_mem (r : RegIdx) (v : Word) : (s.writeReg r v).mem = s.mem := rfl
@[simp] theorem State.writeReg_x (r : RegIdx) (v : Word) : (s.writeReg r v).x = s.x.set r.val v r.isLt := rfl
@[simp] theorem State.writeReg_pc (r : RegIdx) (v : Word) : (s.writeReg r v).pc = s.pc := rfl
@[simp] theorem State.writeReg_stack (r : RegIdx) (v : Word) : (s.writeReg r v).stack = s.stack := rfl
@[simp] theorem State.writeReg_st (r : RegIdx) (v : Word) : (s.writeReg r v).st = s.st := rfl
@[simp] theorem State.writeReg_term (r : RegIdx) (v : Word) : (s.writeReg r v).term = s.term := rfl
@[simp] theorem State.writeReg_finfo (r : RegIdx) (v : Word) : (s.writeReg r v).finfo = s.finfo := rfl
@[simp] theorem State.writeReg_inDst (r : RegIdx) (v : Word) : (s.writeReg r v).inDst = s.inDst := rfl
@[simp] theorem State.writeReg_cfg (r : RegIdx) (v : Word) : (s.writeReg r v).cfg = s.cfg := rfl
@[simp] theorem State.writeReg_out (r : RegIdx) (v : Word) : (s.writeReg r v).out = s.out := rfl
@[simp] theorem State.writeReg_supplies (r : RegIdx) (v : Word) : (s.writeReg r v).supplies = s.supplies := rfl

@[simp] theorem State.pushWord_mem (v : Word) : (s.pushWord v).mem = s.mem := rfl
@[simp] theorem State.pushWord_x (v : Word) : (s.pushWord v).x = s.x := rfl
@[simp] theorem State.pushWord_pc (v : Word) : (s.pushWord v).pc = s.pc := rfl
@[simp] theorem State.pushWord_stack (v : Word) : (s.pushWord v).stack = v :: s.stack := rfl
@[simp] theorem State.pushWord_st (v : Word) : (s.pushWord v).st = s.st := rfl
@[simp] theorem State.pushWord_term (v : Word) : (s.pushWord v).term = s.term := rfl
@[simp] theorem State.pushWord_finfo (v : Word) : (s.pushWord v).finfo = s.finfo := rfl
@[simp] theorem State.pushWord_inDst (v : Word) : (s.pushWord v).inDst = s.inDst := rfl
@[simp] theorem State.pushWord_cfg (v : Word) : (s.pushWord v).cfg = s.cfg := rfl
@[simp] theorem State.pushWord_out (v : Word) : (s.pushWord v).out = s.out := rfl
@[simp] theorem State.pushWord_supplies (v : Word) : (s.pushWord v).supplies = s.supplies := rfl

@[simp] theorem State.withStack_mem (l : List Word) : (s.withStack l).mem = s.mem := rfl
@[simp] theorem State.withStack_x (l : List Word) : (s.withStack l).x = s.x := rfl
@[simp] theorem State.withStack_pc (l : List Word) : (s.withStack l).pc = s.pc := rfl
@[simp] theorem State.withStack_stack (l : List Word) : (s.withStack l).stack = l := rfl
@[simp] theorem State.withStack_st (l : List Word) : (s.withStack l).st = s.st := rfl
@[simp] theorem State.withStack_term (l : List Word) : (s.withStack l).term = s.term := rfl
@[simp] theorem State.withStack_finfo (l : List Word) : (s.withStack l).finfo = s.finfo := rfl
@[simp] theorem State.withStack_inDst (l : List Word) : (s.withStack l).inDst = s.inDst := rfl
@[simp] theorem State.withStack_cfg (l : List Word) : (s.withStack l).cfg = s.cfg := rfl
@[simp] theorem State.withStack_out (l : List Word) : (s.withStack l).out = s.out := rfl
@[simp] theorem State.withStack_supplies (l : List Word) : (s.withStack l).supplies = s.supplies := rfl

@[simp] theorem State.emit_mem (v : Word) : (s.emit v).mem = s.mem := rfl
@[simp] theorem State.emit_x (v : Word) : (s.emit v).x = s.x := rfl
@[simp] theorem State.emit_pc (v : Word) : (s.emit v).pc = s.pc := rfl
@[simp] theorem State.emit_stack (v : Word) : (s.emit v).stack = s.stack := rfl
@[simp] theorem State.emit_st (v : Word) : (s.emit v).st = s.st := rfl
@[simp] theorem State.emit_term (v : Word) : (s.emit v).term = s.term := rfl
@[simp] theorem State.emit_finfo (v : Word) : (s.emit v).finfo = s.finfo := rfl
@[simp] theorem State.emit_inDst (v : Word) : (s.emit v).inDst = s.inDst := rfl
@[simp] theorem State.emit_cfg (v : Word) : (s.emit v).cfg = s.cfg := rfl
@[simp] theorem State.emit_out (v : Word) : (s.emit v).out = s.out ++ [v] := rfl
@[simp] theorem State.emit_supplies (v : Word) : (s.emit v).supplies = s.supplies := rfl

@[simp] theorem State.setPc_mem (p : Nat) : (s.setPc p).mem = s.mem := rfl
@[simp] theorem State.setPc_x (p : Nat) : (s.setPc p).x = s.x := rfl
@[simp] theorem State.setPc_pc (p : Nat) : (s.setPc p).pc = p := rfl
@[simp] theorem State.setPc_stack (p : Nat) : (s.setPc p).stack = s.stack := rfl
@[simp] theorem State.setPc_st (p : Nat) : (s.setPc p).st = s.st := rfl
@[simp] theorem State.setPc_term (p : Nat) : (s.setPc p).term = s.term := rfl
@[simp] theorem State.setPc_finfo (p : Nat) : (s.setPc p).finfo = s.finfo := rfl
@[simp] theorem State.setPc_inDst (p : Nat) : (s.setPc p).inDst = s.inDst := rfl
@[simp] theorem State.setPc_cfg (p : Nat) : (s.setPc p).cfg = s.cfg := rfl
@[simp] theorem State.setPc_out (p : Nat) : (s.setPc p).out = s.out := rfl
@[simp] theorem State.setPc_supplies (p : Nat) : (s.setPc p).supplies = s.supplies := rfl

@[simp] theorem State.complete_mem (p : Nat) : (s.complete p).mem = s.mem := rfl
@[simp] theorem State.complete_x (p : Nat) : (s.complete p).x = s.x := rfl
@[simp] theorem State.complete_pc (p : Nat) : (s.complete p).pc = p := rfl
@[simp] theorem State.complete_stack (p : Nat) : (s.complete p).stack = s.stack := rfl
@[simp] theorem State.complete_st (p : Nat) : (s.complete p).st = .running := rfl
@[simp] theorem State.complete_term (p : Nat) : (s.complete p).term = s.term := rfl
@[simp] theorem State.complete_finfo (p : Nat) : (s.complete p).finfo = s.finfo := rfl
@[simp] theorem State.complete_inDst (p : Nat) : (s.complete p).inDst = s.inDst := rfl
@[simp] theorem State.complete_cfg (p : Nat) : (s.complete p).cfg = s.cfg := rfl
@[simp] theorem State.complete_out (p : Nat) : (s.complete p).out = s.out := rfl
@[simp] theorem State.complete_supplies (p : Nat) : (s.complete p).supplies = s.supplies := rfl

@[simp] theorem State.raise_mem (e : ErrorKind) (i : Cell) : (s.raise e i).mem = s.mem := rfl
@[simp] theorem State.raise_x (e : ErrorKind) (i : Cell) : (s.raise e i).x = s.x := rfl
@[simp] theorem State.raise_pc (e : ErrorKind) (i : Cell) : (s.raise e i).pc = s.pc := rfl
@[simp] theorem State.raise_stack (e : ErrorKind) (i : Cell) : (s.raise e i).stack = s.stack := rfl
@[simp] theorem State.raise_st (e : ErrorKind) (i : Cell) : (s.raise e i).st = .faulted := rfl
@[simp] theorem State.raise_term (e : ErrorKind) (i : Cell) : (s.raise e i).term = .raised e := rfl
@[simp] theorem State.raise_finfo (e : ErrorKind) (i : Cell) : (s.raise e i).finfo = i := rfl
@[simp] theorem State.raise_inDst (e : ErrorKind) (i : Cell) : (s.raise e i).inDst = s.inDst := rfl
@[simp] theorem State.raise_cfg (e : ErrorKind) (i : Cell) : (s.raise e i).cfg = s.cfg := rfl
@[simp] theorem State.raise_out (e : ErrorKind) (i : Cell) : (s.raise e i).out = s.out := rfl
@[simp] theorem State.raise_supplies (e : ErrorKind) (i : Cell) : (s.raise e i).supplies = s.supplies := rfl

@[simp] theorem State.stop_mem (r : StopReason) : (s.stop r).mem = s.mem := rfl
@[simp] theorem State.stop_x (r : StopReason) : (s.stop r).x = s.x := rfl
@[simp] theorem State.stop_pc (r : StopReason) : (s.stop r).pc = s.pc := rfl
@[simp] theorem State.stop_stack (r : StopReason) : (s.stop r).stack = s.stack := rfl
@[simp] theorem State.stop_st (r : StopReason) : (s.stop r).st = .halted := rfl
@[simp] theorem State.stop_term (r : StopReason) : (s.stop r).term = .stopped r := rfl
@[simp] theorem State.stop_finfo (r : StopReason) : (s.stop r).finfo = s.finfo := rfl
@[simp] theorem State.stop_inDst (r : StopReason) : (s.stop r).inDst = s.inDst := rfl
@[simp] theorem State.stop_cfg (r : StopReason) : (s.stop r).cfg = s.cfg := rfl
@[simp] theorem State.stop_out (r : StopReason) : (s.stop r).out = s.out := rfl
@[simp] theorem State.stop_supplies (r : StopReason) : (s.stop r).supplies = s.supplies := rfl

@[simp] theorem State.suspend_mem (r : RegIdx) : (s.suspend r).mem = s.mem := rfl
@[simp] theorem State.suspend_x (r : RegIdx) : (s.suspend r).x = s.x := rfl
@[simp] theorem State.suspend_pc (r : RegIdx) : (s.suspend r).pc = s.pc := rfl
@[simp] theorem State.suspend_stack (r : RegIdx) : (s.suspend r).stack = s.stack := rfl
@[simp] theorem State.suspend_st (r : RegIdx) : (s.suspend r).st = .awaitingInput := rfl
@[simp] theorem State.suspend_term (r : RegIdx) : (s.suspend r).term = s.term := rfl
@[simp] theorem State.suspend_finfo (r : RegIdx) : (s.suspend r).finfo = s.finfo := rfl
@[simp] theorem State.suspend_inDst (r : RegIdx) : (s.suspend r).inDst = some r := rfl
@[simp] theorem State.suspend_cfg (r : RegIdx) : (s.suspend r).cfg = s.cfg := rfl
@[simp] theorem State.suspend_out (r : RegIdx) : (s.suspend r).out = s.out := rfl
@[simp] theorem State.suspend_supplies (r : RegIdx) : (s.suspend r).supplies = s.supplies := rfl

@[simp] theorem State.resume_mem (r : RegIdx) (c : Word) : (s.resume r c).mem = s.mem := rfl
@[simp] theorem State.resume_x (r : RegIdx) (c : Word) : (s.resume r c).x = s.x.set r.val c r.isLt := rfl
@[simp] theorem State.resume_pc (r : RegIdx) (c : Word) : (s.resume r c).pc = s.pc + 2 := rfl
@[simp] theorem State.resume_stack (r : RegIdx) (c : Word) : (s.resume r c).stack = s.stack := rfl
@[simp] theorem State.resume_st (r : RegIdx) (c : Word) : (s.resume r c).st = .running := rfl
@[simp] theorem State.resume_term (r : RegIdx) (c : Word) : (s.resume r c).term = s.term := rfl
@[simp] theorem State.resume_finfo (r : RegIdx) (c : Word) : (s.resume r c).finfo = s.finfo := rfl
@[simp] theorem State.resume_inDst (r : RegIdx) (c : Word) : (s.resume r c).inDst = s.inDst := rfl
@[simp] theorem State.resume_cfg (r : RegIdx) (c : Word) : (s.resume r c).cfg = s.cfg := rfl
@[simp] theorem State.resume_out (r : RegIdx) (c : Word) : (s.resume r c).out = s.out := rfl
@[simp] theorem State.resume_supplies (r : RegIdx) (c : Word) : (s.resume r c).supplies = s.supplies := rfl

theorem State.cursor_eq (n : Nat) : s.cursor n = s.pc + 1 + n := rfl

@[simp] theorem State.readReg_writeReg (r q : RegIdx) (v : Word) :
    (s.writeReg r v).readReg q = if r = q then v else s.readReg q := by
  simp [State.readReg, Vector.getElem_set, Fin.ext_iff]

/-- Reading a register depends on `x` alone. -/
theorem State.readReg_congr {s t : State} (h : s.x = t.x) (r : RegIdx) : s.readReg r = t.readReg r := by
  simp [State.readReg, h]

/-- Resolving an operand depends on `x` alone (R90). -/
theorem State.resolve_congr {s t : State} (h : s.x = t.x) (o : Operand) : s.resolve o = t.resolve o := by
  cases o with
  | lit v => rfl
  | reg r => exact State.readReg_congr h r

@[simp] theorem State.resolve_lit (v : Word) : s.resolve (.lit v) = v := rfl

@[simp] theorem State.resolve_reg (r : RegIdx) : s.resolve (.reg r) = s.readReg r := rfl

/-- The two answers of the write-context resolver (R91). -/
@[simp] theorem withTarget_reg (r : RegIdx) (k : RegIdx → Result) : withTarget (.reg r) s k = k r := rfl

@[simp] theorem withTarget_lit (w : Word) (k : RegIdx → Result) :
    withTarget (.lit w) s k = .next (s.raise .invalidDestination (zext16 w)) := rfl

/-- What `withTarget` can answer: a register destination handed on, or the fault of R91. -/
theorem withTarget_cases (dst : Operand) (k : RegIdx → Result) :
    (∃ r, dst = .reg r ∧ withTarget dst s k = k r) ∨
      (∃ w, dst = .lit w ∧ withTarget dst s k = .next (s.raise .invalidDestination (zext16 w))) := by
  cases dst with
  | lit w => exact .inr ⟨w, rfl, rfl⟩
  | reg r => exact .inl ⟨r, rfl, rfl⟩

end Sys2Proof.Machine
end

