-- ==== Sys2Proof/Laws/Ops.lean ====
section
/-! SUPPORT. One lemma per shared operation of the meanings, in the numbers the spec speaks of: proofs about an
instruction cite these instead of unfolding the operation. -/

namespace Sys2Proof.Machine

/-- The truth values of R130 and R131 are 0 and 1. -/
@[simp] theorem toNat_truthWord (b : Bool) : (truthWord b).toNat = if b = true then 1 else 0 := by cases b <;> rfl

theorem eqTest_eq (a b : Word) : eqTest a b = decide (a.toNat = b.toNat) := by
  simp [eqTest, BitVec.toNat_inj, Bool.beq_eq_decide_eq]

/-- The test of JT and JF is "not zero" (R141, R142). -/
theorem nonZero_eq (a : Word) : nonZero a = decide (a.toNat ≠ 0) := by
  have h : a = 0#15 ↔ a.toNat = 0 := by rw [← BitVec.toNat_inj]; rfl
  simp [nonZero, bne, Bool.beq_eq_decide_eq, h]

/-- Normalisation is the remainder modulo 32768 (R156). -/
@[simp] theorem toNat_wrap15 (n : Nat) : (wrap15 n).toNat = n % 32768 := by
  simp [wrap15]

/-- NOT's complement is taken from 32767 (R155). -/
@[simp] theorem toNat_aluNot (a : Word) : (aluNot a).toNat = 32767 - a.toNat := by
  simp [aluNot, BitVec.toNat_not]

/-- A stack has room exactly when the build is unbounded or its capacity is above the depth (R28, D20). -/
theorem stackFull_eq_false {s : State} :
    s.stackFull = false ↔ ∀ n, s.cfg.stackCapacity = some n → s.stack.length < n := by
  rw [State.stackFull, Config.admits]
  cases s.cfg.stackCapacity with
  | none => simp
  | some n => simp

theorem stackFull_of_eq {s : State} (h : s.cfg.stackCapacity = some s.stack.length) : s.stackFull = true := by
  simp [State.stackFull, Config.admits, h]

/-- A cell is a Word exactly when it is below 32768, and then keeps its value (R7, R160). -/
theorem cellToWord_of_lt {c : Cell} (h : c.toNat < 32768) : ∃ v : Word, cellToWord c = some v ∧ v.toNat = c.toNat := by
  refine ⟨low15 c, if_pos h, ?_⟩
  simp only [low15, BitVec.toNat_setWidth]
  omega

theorem cellToWord_of_ge {c : Cell} (h : 32768 ≤ c.toNat) : cellToWord c = none := if_neg (by omega)

end Sys2Proof.Machine
end

