-- ==== Sys2Proof/Laws/PerInstr.lean ====
section
/-! SUPPORT. The per-instruction family `EncodedLength`: an encoded instruction is its opcode cell and as many operand
cells as its row of R76 says, 1 to 4 cells in all (R71, R94). -/

namespace Sys2Proof.Laws.EncodedLength

/-- R71: the length of an instruction is `1 + arity`, and its first cell is its opcode. -/
def Statement (i : Instr) : Prop :=
  (encode i).head? = some (opcode i.mnemonic) ∧ (encode i).length = 1 + arity i.mnemonic ∧ (encode i).length ≤ 4

/-- No row has more than three operands (R94), so the first two parts give the third. -/
theorem ofShape (i : Instr) (hop : (encode i).head? = some (opcode i.mnemonic))
    (hlen : (encode i).length = 1 + arity i.mnemonic) : Statement i :=
  ⟨hop, hlen, by have := arity_le_three i.mnemonic; omega⟩

theorem halt : Statement .halt := ofShape _ rfl rfl
theorem set (dst a : Operand) : Statement (.set dst a) := ofShape _ rfl rfl
theorem push (a : Operand) : Statement (.push a) := ofShape _ rfl rfl
theorem pop (dst : Operand) : Statement (.pop dst) := ofShape _ rfl rfl
theorem eq (dst a b : Operand) : Statement (.eq dst a b) := ofShape _ rfl rfl
theorem gt (dst a b : Operand) : Statement (.gt dst a b) := ofShape _ rfl rfl
theorem jmp (a : Operand) : Statement (.jmp a) := ofShape _ rfl rfl
theorem jt (a b : Operand) : Statement (.jt a b) := ofShape _ rfl rfl
theorem jf (a b : Operand) : Statement (.jf a b) := ofShape _ rfl rfl
theorem add (dst a b : Operand) : Statement (.add dst a b) := ofShape _ rfl rfl
theorem mult (dst a b : Operand) : Statement (.mult dst a b) := ofShape _ rfl rfl
theorem mod (dst a b : Operand) : Statement (.mod dst a b) := ofShape _ rfl rfl
theorem and (dst a b : Operand) : Statement (.and dst a b) := ofShape _ rfl rfl
theorem or (dst a b : Operand) : Statement (.or dst a b) := ofShape _ rfl rfl
theorem not (dst a : Operand) : Statement (.not dst a) := ofShape _ rfl rfl
theorem rmem (dst b : Operand) : Statement (.rmem dst b) := ofShape _ rfl rfl
theorem wmem (a b : Operand) : Statement (.wmem a b) := ofShape _ rfl rfl
theorem call (a : Operand) : Statement (.call a) := ofShape _ rfl rfl
theorem ret : Statement .ret := ofShape _ rfl rfl
theorem out (a : Operand) : Statement (.out a) := ofShape _ rfl rfl
theorem inp (dst : Operand) : Statement (.inp dst) := ofShape _ rfl rfl
theorem noop : Statement .noop := ofShape _ rfl rfl

end Sys2Proof.Laws.EncodedLength
end

