-- ==== Sys2Proof/Laws/Step.lean ====
section
/-! SUPPORT. What a fetch and a step can do, said once: later proofs cite these lemmas instead of unfolding the step. -/

namespace Sys2Proof.Machine

variable {s t : State}

@[simp] theorem stateOf_next (p : State × CallResult) : stateOf (.next p) = .next p.1 := rfl

/-- A report keeps the state the instruction left. -/
@[simp] theorem stateOf_report (m : Mnemonic) (r : Result) : stateOf (report m r) = r := by cases r <;> rfl

/-! ## Fetch -/

theorem fetch_of_exhausted (h : 32768 ≤ s.pc) : fetch s = .reject .noOpcodeCell := by
  simp [fetch, fetchCells, Nat.not_lt.mpr h, decode]

/-- Reading cells depends on memory at those addresses alone. -/
theorem fetch_congr (hm : s.mem = t.mem) (hp : s.pc = t.pc) : fetch s = fetch t := by
  simp [fetch, fetchCells, hm, hp]

/-- Inside memory a fetch decodes the opcode cell at `pc` and the operand cells after it. -/
theorem fetch_of_pc_lt (h : s.pc < 32768) :
    fetch s = decode (s.mem.read s.pc :: cellsFrom s.mem (s.pc + 1) (operandCount (s.mem.read s.pc))) := by
  rw [fetch, fetchCells, if_pos h, Nat.add_comm 1, cellsFrom, if_pos h]

/-- A fetch meets the exhausted program counter only past the last address. -/
theorem fetch_eq_noOpcodeCell (h : fetch s = .reject .noOpcodeCell) : 32768 ≤ s.pc := by
  by_contra hlt
  rw [fetch_of_pc_lt (by omega), decode] at h
  split at h
  · cases h
  · rename_i m _
    generalize cellsFrom s.mem (s.pc + 1) _ = cs at h
    cases hs : shape m <;> rw [hs] at h <;> rcases cs with _ | ⟨a, _ | ⟨b, _ | ⟨c, cs⟩⟩⟩ <;>
      simp only [decodeShape] at h <;> (try split at h) <;> cases h

/-- `n` cells are read when they all lie inside memory. -/
theorem length_cellsFrom (m : Memory) (p n : Nat) (h : p + n ≤ 32768) : (cellsFrom m p n).length = n := by
  induction n generalizing p with
  | zero => rfl
  | succ n ih => rw [cellsFrom, if_pos (by omega), List.length_cons, ih (p + 1) (by omega)]

/-- Otherwise the reading ends with the last address. -/
theorem length_cellsFrom_le (m : Memory) (p n : Nat) : (cellsFrom m p n).length ≤ n := by
  induction n generalizing p with
  | zero => exact le_refl 0
  | succ n ih =>
    rw [cellsFrom]
    split
    · exact Nat.succ_le_succ (ih (p + 1))
    · exact Nat.zero_le _

theorem length_cellsFrom_past (m : Memory) (p n : Nat) (hp : p ≤ 32768) (h : 32768 < p + n) :
    (cellsFrom m p n).length < n := by
  induction n generalizing p with
  | zero => omega
  | succ n ih =>
    rw [cellsFrom]
    split
    · exact Nat.succ_lt_succ (ih (p + 1) (by omega) (by omega))
    · exact Nat.succ_pos n

/-- The cells read are those of memory. -/
theorem getElem_cellsFrom (m : Memory) (p n k : Nat) (h : k < (cellsFrom m p n).length) :
    (cellsFrom m p n)[k] = m.read (p + k) := by
  induction n generalizing p k with
  | zero => exact absurd h (Nat.not_lt_zero k)
  | succ n ih =>
    by_cases hp : p < 32768
    · cases k with
      | zero => simp [cellsFrom, hp]
      | succ k =>
        simp only [cellsFrom, hp, if_true, List.getElem_cons_succ]
        rw [ih (p + 1) k (by simpa [cellsFrom, hp] using h)]
        congr 1; omega
    · simp [cellsFrom, hp] at h

/-! ## The step -/

/-- In Ready and Running a step is one instruction (R92, R103). -/
theorem step_active (h : s.active) : step s = stateOf (runInstr s) := by
  rcases h with h | h <;> simp [step, hostTurn, h, call, stepCall]

/-- In Halted and Faulted a step changes nothing (R35). -/
theorem step_ended (h : s.ended) : step s = .next s := by
  rcases h with h | h <;> simp [step, hostTurn, h, call, stepCall]

/-- While AwaitingInput with no code announced a step changes nothing (R206). -/
theorem step_awaiting_nil (h : s.st = .awaitingInput) (hs : s.supplies = []) : step s = .next s := by
  simp [step, hostTurn, h, hs, call, stepCall]

/-- While AwaitingInput with a code announced it is the supply of that code (R182). -/
theorem step_awaiting_cons {c : Word} {rest : List Word} (h : s.st = .awaitingInput) (hs : s.supplies = c :: rest) :
    step s = stateOf (supplyCall c { s with supplies := rest }) := by
  simp [step, hostTurn, h, hs, call]

/-- The fault of a fetch that gives no instruction (R93, R95, R96), for every cause but the exhausted program counter. -/
def decodeFault : DecodeError → Option (ErrorKind × Cell)
  | .noOpcodeCell => none
  | .unsupportedOpcode op => some (.unsupportedOpcode, op)
  | .noOperandCell => some (.addressingFault, 32768)
  | .invalidOperand w => some (.invalidOperand, w)

/-- What the one instruction of a step can be, from a program counter R24 allows: the exhausted end, a fetch that faults,
or the decoded instruction. -/
theorem runInstr_cases (hp : s.pc ≤ 32768) :
    (s.pc = 32768 ∧ runInstr s = .next (s.stop .pcExhausted, .exhausted)) ∨
    (∃ d e info, s.pc < 32768 ∧ fetch s = .reject d ∧ decodeFault d = some (e, info) ∧
      runInstr s = .next (s.raise e info, .fault (.raised e) info)) ∨
    (∃ i rest, s.pc < 32768 ∧ fetch s = .instr i rest ∧ runInstr s = report i.mnemonic (exec i s)) := by
  have hnot : ¬ s.pc > 32768 := by omega
  rw [runInstr, if_neg hnot]
  cases hf : fetch s with
  | instr i rest =>
    refine .inr (.inr ⟨i, rest, ?_, rfl, rfl⟩)
    by_contra hge
    rw [fetch_of_exhausted (by omega)] at hf
    cases hf
  | reject e =>
    have hlt : e ≠ .noOpcodeCell → s.pc < 32768 := by
      intro hne
      by_contra hge
      rw [fetch_of_exhausted (by omega)] at hf
      injection hf with hf
      exact hne hf.symm
    cases e with
    | noOpcodeCell =>
      have := fetch_eq_noOpcodeCell hf
      exact .inl ⟨by omega, rfl⟩
    | unsupportedOpcode op => exact .inr (.inl ⟨_, _, _, hlt (by simp), rfl, rfl, rfl⟩)
    | noOperandCell => exact .inr (.inl ⟨_, _, _, hlt (by simp), rfl, rfl, rfl⟩)
    | invalidOperand w => exact .inr (.inl ⟨_, _, _, hlt (by simp), rfl, rfl, rfl⟩)

/-- Everything a step with a next state can be. -/
theorem step_next_cases (h : step s = .next t) :
    (s.ended ∧ t = s) ∨
    (s.st = .awaitingInput ∧ s.supplies = [] ∧ t = s) ∨
    (∃ c rest r, s.st = .awaitingInput ∧ s.supplies = c :: rest ∧ s.inDst = some r ∧
      t = ({ s with supplies := rest } : State).resume r c) ∨
    (s.active ∧ s.pc = 32768 ∧ t = s.stop .pcExhausted) ∨
    (s.active ∧ ∃ d e info, s.pc < 32768 ∧ fetch s = .reject d ∧ decodeFault d = some (e, info) ∧
      t = s.raise e info) ∨
    (s.active ∧ ∃ i rest, s.pc < 32768 ∧ fetch s = .instr i rest ∧ exec i s = .next t) := by
  have hactive : s.active → s.pc ≤ 32768 ∧ stateOf (runInstr s) = .next t := by
    intro ha
    rw [step_active ha] at h
    refine ⟨?_, h⟩
    by_contra hgt
    rw [runInstr, if_pos (by omega)] at h
    cases h
  have hrun : s.active →
      (s.active ∧ s.pc = 32768 ∧ t = s.stop .pcExhausted) ∨
      (s.active ∧ ∃ d e info, s.pc < 32768 ∧ fetch s = .reject d ∧ decodeFault d = some (e, info) ∧
        t = s.raise e info) ∨
      (s.active ∧ ∃ i rest, s.pc < 32768 ∧ fetch s = .instr i rest ∧ exec i s = .next t) := by
    intro ha
    obtain ⟨hp, hn⟩ := hactive ha
    obtain ⟨ht, he⟩ | ⟨d, e, info, hlt, hf, hd, he⟩ | ⟨i, rest, hlt, hf, he⟩ := runInstr_cases hp <;> rw [he] at hn
    · exact .inl ⟨ha, ht, by injection hn with hn; exact hn.symm⟩
    · exact .inr (.inl ⟨ha, d, e, info, hlt, hf, hd, by injection hn with hn; exact hn.symm⟩)
    · exact .inr (.inr ⟨ha, i, rest, hlt, hf, by simpa using hn⟩)
  cases hst : s.st with
  | halted =>
    rw [step_ended (.inl hst)] at h
    exact .inl ⟨.inl hst, by injection h with h; exact h.symm⟩
  | faulted =>
    rw [step_ended (.inr hst)] at h
    exact .inl ⟨.inr hst, by injection h with h; exact h.symm⟩
  | awaitingInput =>
    cases hs : s.supplies with
    | nil =>
      rw [step_awaiting_nil hst hs] at h
      exact .inr (.inl ⟨rfl, rfl, by injection h with h; exact h.symm⟩)
    | cons c rest =>
      rw [step_awaiting_cons hst hs] at h
      cases hd : s.inDst with
      | none => simp [supplyCall, hst, hd, stateOf] at h
      | some r =>
        simp only [supplyCall, hst, hd, stateOf_next] at h
        exact .inr (.inr (.inl ⟨c, rest, r, rfl, rfl, rfl, by injection h with h; exact h.symm⟩))
  | ready => exact .inr (.inr (.inr (hrun (.inl hst))))
  | running => exact .inr (.inr (.inr (hrun (.inr hst))))

/-! ## Runs -/

@[simp] theorem core_run_zero (s : State) : Sys2Proof.core.run 0 s = .next s := rfl

/-- A run of `k + 1` steps makes one step and then `k` more. -/
theorem core_run_succ (h : step s = .next t) (k : Nat) : Sys2Proof.core.run (k + 1) s = Sys2Proof.core.run k t := by
  have hs : Sys2Proof.core.step s = .next t := h
  exact (Host.Core.run.eq_2 Sys2Proof.core s k).trans (by rw [hs])

end Sys2Proof.Machine
end

