-- ==== Sys2Proof/Tests/Slice0.lean ====
section
/-! SUPPORT. Small tests. Expected values come from spec/95_test_vectors.md and the corner cases of the instruction rules
(named in each comment), words from the encodings of R76; then one witness per statement of
Certificates/Slice0/Obligations.lean that has hypotheses, at the boundary of each clause. -/

namespace Sys2Proof.Tests

open Sys2Proof Sys2Proof.Machine

/-- The reset state with an image loaded. -/
def img (cells : List Cell) : State := { State.reset with mem := Memory.ofCells 0 cells }

/-- The reset state at `pc` with cells placed there. -/
def imgAt (pc : Nat) (cells : List Cell) : State := { State.reset with mem := Memory.ofCells pc cells, pc := pc }

/-- The state a result holds, if it is a next state. -/
def after : Result → Option State
  | .next t => some t
  | .fault _ => none
  | .refused _ => none

/-- One field of the state one step later. -/
def seen {α : Type} (s : State) (f : State → α) : Option α := (after (step s)).map f

/-- The result of a call. -/
def answer : Host.Outcome (State × CallResult) Fault Refusal → Option CallResult
  | .next p => some p.2
  | .fault _ => none
  | .refused _ => none

/-! ## Well-formedness: a literal in each of the twelve write-target positions is refused (R74) -/

theorem test_wf_refuses_literal_destinations :
    [Instr.set (.lit 4) (.lit 4), .pop (.lit 5), .eq (.lit 0) (.lit 1) (.lit 2), .gt (.lit 0) (.lit 1) (.lit 2),
      .add (.lit 5) (.lit 1) (.lit 2), .mult (.lit 5) (.lit 1) (.lit 2), .mod (.lit 5) (.lit 1) (.lit 2),
      .and (.lit 5) (.lit 1) (.lit 2), .or (.lit 5) (.lit 1) (.lit 2), .not (.lit 5) (.lit 1), .rmem (.lit 5) (.lit 1),
      .inp (.lit 5)].all (fun i => !i.wf) = true := by decide

theorem test_wf_accepts_register_destinations_and_read_literals :
    [Instr.set (.reg 0) (.lit 4), .pop (.reg 7), .wmem (.lit 100) (.lit 42), .push (.lit 5), .halt].all (fun i => i.wf) =
      true := by decide

/-! ## Every constructor's words, written out from R76 and R73, both ways -/

theorem test_word_halt : decode [0] = .instr (.halt) [] ∧ encode (.halt) = [0] := by decide
theorem test_word_set : decode [1, 32768, 4] = .instr (.set (.reg 0) (.lit 4)) [] ∧ encode (.set (.reg 0) (.lit 4)) = [1, 32768, 4] := by decide
theorem test_word_push : decode [2, 32771] = .instr (.push (.reg 3)) [] ∧ encode (.push (.reg 3)) = [2, 32771] := by decide
theorem test_word_pop : decode [3, 32775] = .instr (.pop (.reg 7)) [] ∧ encode (.pop (.reg 7)) = [3, 32775] := by decide
theorem test_word_eq : decode [4, 32768, 5, 32769] = .instr (.eq (.reg 0) (.lit 5) (.reg 1)) [] ∧ encode (.eq (.reg 0) (.lit 5) (.reg 1)) = [4, 32768, 5, 32769] := by decide
theorem test_word_gt : decode [5, 32768, 6, 5] = .instr (.gt (.reg 0) (.lit 6) (.lit 5)) [] ∧ encode (.gt (.reg 0) (.lit 6) (.lit 5)) = [5, 32768, 6, 5] := by decide
theorem test_word_jmp : decode [6, 32767] = .instr (.jmp (.lit 32767)) [] ∧ encode (.jmp (.lit 32767)) = [6, 32767] := by decide
theorem test_word_jt : decode [7, 1, 50] = .instr (.jt (.lit 1) (.lit 50)) [] ∧ encode (.jt (.lit 1) (.lit 50)) = [7, 1, 50] := by decide
theorem test_word_jf : decode [8, 32768, 32769] = .instr (.jf (.reg 0) (.reg 1)) [] ∧ encode (.jf (.reg 0) (.reg 1)) = [8, 32768, 32769] := by decide
theorem test_word_add : decode [9, 32769, 32768, 11] = .instr (.add (.reg 1) (.reg 0) (.lit 11)) [] ∧ encode (.add (.reg 1) (.reg 0) (.lit 11)) = [9, 32769, 32768, 11] := by decide
theorem test_word_mult : decode [10, 32768, 200, 200] = .instr (.mult (.reg 0) (.lit 200) (.lit 200)) [] ∧ encode (.mult (.reg 0) (.lit 200) (.lit 200)) = [10, 32768, 200, 200] := by decide
theorem test_word_mod : decode [11, 32768, 7, 3] = .instr (.mod (.reg 0) (.lit 7) (.lit 3)) [] ∧ encode (.mod (.reg 0) (.lit 7) (.lit 3)) = [11, 32768, 7, 3] := by decide
theorem test_word_and : decode [12, 32768, 12, 10] = .instr (.and (.reg 0) (.lit 12) (.lit 10)) [] ∧ encode (.and (.reg 0) (.lit 12) (.lit 10)) = [12, 32768, 12, 10] := by decide
theorem test_word_or : decode [13, 32768, 12, 10] = .instr (.or (.reg 0) (.lit 12) (.lit 10)) [] ∧ encode (.or (.reg 0) (.lit 12) (.lit 10)) = [13, 32768, 12, 10] := by decide
theorem test_word_not : decode [14, 32768, 0] = .instr (.not (.reg 0) (.lit 0)) [] ∧ encode (.not (.reg 0) (.lit 0)) = [14, 32768, 0] := by decide
theorem test_word_rmem : decode [15, 32770, 100] = .instr (.rmem (.reg 2) (.lit 100)) [] ∧ encode (.rmem (.reg 2) (.lit 100)) = [15, 32770, 100] := by decide
theorem test_word_wmem : decode [16, 100, 42] = .instr (.wmem (.lit 100) (.lit 42)) [] ∧ encode (.wmem (.lit 100) (.lit 42)) = [16, 100, 42] := by decide
theorem test_word_call : decode [17, 6] = .instr (.call (.lit 6)) [] ∧ encode (.call (.lit 6)) = [17, 6] := by decide
theorem test_word_ret : decode [18] = .instr (.ret) [] ∧ encode (.ret) = [18] := by decide
theorem test_word_out : decode [19, 32769] = .instr (.out (.reg 1)) [] ∧ encode (.out (.reg 1)) = [19, 32769] := by decide
theorem test_word_inp : decode [20, 32768] = .instr (.inp (.reg 0)) [] ∧ encode (.inp (.reg 0)) = [20, 32768] := by decide
theorem test_word_noop : decode [21] = .instr (.noop) [] ∧ encode (.noop) = [21] := by decide

/-- R77: no opcode above 21, the register references and the top of the range included. -/
theorem test_decode_rejects_unsupported : [22, 32768, 32776, 65535].all
    (fun op => decode [op] == .reject (.unsupportedOpcode op)) = true := by decide

/-- S10, S11: the lowest-numbered invalid operand is named; R79 (c): a missing operand cell comes first. -/
theorem test_decode_rejects_operands : decode [9, 32776, 32777, 1] = .reject (.invalidOperand 32776) ∧
    decode [9, 32768, 1, 32777] = .reject (.invalidOperand 32777) ∧ decode [9, 32776, 1] = .reject .noOperandCell ∧
    decode [] = .reject .noOpcodeCell := by decide

/-- S8, S9: InvalidOperand before InvalidDestination. -/
theorem test_classify_destination : classify [9, 5, 1, 2] = .invalidDestination 5 ∧
    classify [9, 5, 32776, 1] = .invalidOperand 32776 ∧ classify [21] = .decoded .noop := by decide

/-- ADD with operand cells of zeros, as a table word; SET r0, 4 as a full word (its cells in order, first lowest). -/
theorem test_table_words : decodeTableWord 16 9 = some (.add (.lit 0) (.lit 0) (.lit 0)) ∧
    decodeTableWord 48 (1 + 32768 * 65536 + 4 * 4294967296) = some (.set (.reg 0) (.lit 4)) ∧
    decodeTableWord 16 22 = none := by decide

/-- B1, B2: the image's bytes are little-endian. -/
theorem test_image_bytes : cellsOfBytes [0x09, 0x00, 0x00, 0x80, 0x01, 0x80, 0x04, 0x00] = some [9, 32768, 32769, 4] ∧
    cellsOfBytes [0xFF, 0x7F, 0x08, 0x80] = some [32767, 32776] ∧ cellsOfBytes [0x09] = none := by decide

/-- D10: the numeric codes of R30, R32 and R200. -/
theorem test_codes : ExecState.ready.code = 0 ∧ ExecState.faulted.code = 4 ∧ Term.none.code = 0 ∧
    (Term.stopped .pcExhausted).code = 3 ∧ (Term.raised .unsupportedOpcode).code = 16 ∧
    (Term.raised .stackOverflow).code = 23 := by decide

/-! ## One step of each instruction -/

/-- H1. -/
theorem test_halt : seen (img [0]) (fun t => (t.st, t.term, t.pc)) = some (.halted, .stopped .haltInstruction, 1) := by decide
/-- M2. -/
theorem test_set : seen ((img [1, 32769, 32768]).writeReg 0 9) (fun t => (t.readReg 1, t.pc, t.st)) = some (9, 3, .running) := by decide
/-- M4. -/
theorem test_set_literal_destination : seen (img [1, 4, 4]) (fun t => (t.st, t.term, t.finfo, t.pc)) = some (.faulted, .raised .invalidDestination, 4, 0) := by decide
/-- M5. -/
theorem test_push : seen (((img [2, 32771]).writeReg 3 7).pushWord 1) (fun t => (t.stack, t.pc)) = some ([7, 1], 2) := by decide
/-- D20: a push onto a full stack of a finite build. -/
theorem test_push_full : seen ({ img [2, 5] with cfg := { stackCapacity := some 1 }, stack := [9] }) (fun t => (t.stack, t.term, t.finfo)) = some ([9], .raised .stackOverflow, 0) := by decide
/-- M6. -/
theorem test_pop : seen ({ img [3, 32768] with stack := [6, 5] }) (fun t => (t.readReg 0, t.stack, t.pc)) = some (6, [5], 2) := by decide
/-- S12: the operand check comes before StackUnderflow. -/
theorem test_pop_literal_on_empty_stack : seen (img [3, 5]) (fun t => (t.term, t.finfo)) = some (.raised .invalidDestination, 5) := by decide
/-- K2. -/
theorem test_eq : seen (img [4, 32768, 5, 6]) (fun t => (t.readReg 0, t.pc, t.st)) = some (0, 4, .running) := by decide
/-- Corner case of R130: r1 = 7. -/
theorem test_eq_register_and_literal : seen ((img [4, 32768, 32769, 7]).writeReg 1 7) (fun t => (t.readReg 0, t.pc, t.st)) = some (1, 4, .running) := by decide
/-- K7. -/
theorem test_gt_unsigned : seen (img [5, 32768, 32767, 0]) (fun t => (t.readReg 0, t.pc, t.st)) = some (1, 4, .running) := by decide
/-- K6. -/
theorem test_gt_strict : seen ((img [5, 32768, 5, 5]).writeReg 0 9) (fun t => (t.readReg 0, t.pc, t.st)) = some (0, 4, .running) := by decide
/-- J2. -/
theorem test_jmp_register : seen ((img [6, 32768]).writeReg 0 7) (fun t => (t.pc, t.st)) = some (7, .running) := by decide
/-- J6. -/
theorem test_jt_taken : seen (img [7, 32767, 50]) (fun t => t.pc) = some 50 := by decide
/-- S13. -/
theorem test_jt_untaken_target_checked : seen (img [7, 0, 32776]) (fun t => (t.term, t.finfo)) = some (.raised .invalidOperand, 32776) := by decide
/-- J9. -/
theorem test_jf_taken : seen ((img [8, 32768, 32769]).writeReg 1 12) (fun t => t.pc) = some 12 := by decide
/-- J8. -/
theorem test_jf_falls_through : seen (img [8, 9, 50]) (fun t => t.pc) = some 3 := by decide
/-- A3. -/
theorem test_add_wraps : seen (img [9, 32768, 32767, 32767]) (fun t => (t.readReg 0, t.pc, t.st)) = some (32766, 4, .running) := by decide
/-- A4. -/
theorem test_add_reads_before_writing : seen ((img [9, 32768, 32768, 32768]).writeReg 0 20000) (fun t => (t.readReg 0, t.pc, t.st)) = some (7232, 4, .running) := by decide
/-- A7. -/
theorem test_mult_wraps : seen (img [10, 32768, 32767, 32767]) (fun t => (t.readReg 0, t.pc, t.st)) = some (1, 4, .running) := by decide
/-- A9. -/
theorem test_mult_exact : seen (img [10, 32768, 182, 182]) (fun t => (t.readReg 0, t.pc, t.st)) = some (356, 4, .running) := by decide
/-- A15. -/
theorem test_mod : seen (img [11, 32768, 3, 7]) (fun t => (t.readReg 0, t.pc, t.st)) = some (3, 4, .running) := by decide
/-- A19. -/
theorem test_mod_by_zero : seen ((img [11, 32768, 32768, 0]).writeReg 0 9) (fun t => (t.readReg 0, t.pc, t.st, t.term, t.finfo)) = some (9, 0, .faulted, .raised .divisionByZero, 0) := by decide
/-- A20. -/
theorem test_and : seen ((img [12, 32768, 21845, 10922]).writeReg 0 9) (fun t => (t.readReg 0, t.pc, t.st)) = some (0, 4, .running) := by decide
/-- A24. -/
theorem test_or : seen (img [13, 32768, 21845, 10922]) (fun t => (t.readReg 0, t.pc, t.st)) = some (32767, 4, .running) := by decide
/-- A27. -/
theorem test_not : seen (img [14, 32768, 21845]) (fun t => (t.readReg 0, t.pc, t.st)) = some (10922, 3, .running) := by decide
/-- X2. -/
theorem test_rmem_own_opcode : seen (img [15, 32768, 0]) (fun t => (t.readReg 0, t.pc, t.st)) = some (15, 3, .running) := by decide
/-- X3. -/
theorem test_rmem_invalid_word : seen (img [15, 32768, 1]) (fun t => (t.readReg 0, t.term, t.finfo)) = some (0, .raised .invalidWord, 32768) := by decide
/-- X6. -/
theorem test_wmem : seen (((img [16, 32768, 32769]).writeReg 0 200).writeReg 1 9) (fun t => (t.mem.read 200, t.pc)) = some (9, 3) := by decide
/-- X8. -/
theorem test_wmem_own_cell : seen (img [16, 1, 7]) (fun t => (t.mem.read 1, t.mem.read 0, t.pc)) = some (7, 16, 3) := by decide
/-- C2. -/
theorem test_call : seen ((imgAt 10 [17, 32768]).writeReg 0 50) (fun t => (t.stack, t.pc)) = some ([12], 50) := by decide
/-- C3. -/
theorem test_call_at_32766 : seen (imgAt 32766 [17, 0]) (fun t => (t.stack, t.term, t.finfo, t.pc)) = some ([], .raised .addressingFault, 32768, 32766) := by decide
/-- C4. -/
theorem test_ret : seen ({ imgAt 9 [18] with stack := [2] }) (fun t => (t.stack, t.pc, t.st)) = some ([], 2, .running) := by decide
/-- C5. -/
theorem test_ret_on_empty_stack : seen (imgAt 9 [18]) (fun t => (t.st, t.term, t.pc)) = some (.halted, .stopped .retEmptyStack, 10) := by decide
/-- O3. -/
theorem test_out : seen ({ img [19, 32767] with out := [1] }) (fun t => (t.out, t.pc)) = some ([1, 32767], 2) := by decide
/-- O4. -/
theorem test_in : seen (img [20, 32768]) (fun t => (t.st, t.inDst, t.pc)) = some (.awaitingInput, some 0, 0) := by decide
/-- O6. -/
theorem test_in_literal_destination : seen (img [20, 5]) (fun t => (t.st, t.term, t.finfo)) = some (.faulted, .raised .invalidDestination, 5) := by decide
/-- H4. -/
theorem test_noop_at_the_last_address : seen (imgAt 32767 [21]) (fun t => (t.pc, t.st)) = some (32768, .running) := by decide

/-! ## The step and the host calls -/

/-- O5. -/
theorem test_supply : seen ({ img [20, 32769] with st := .awaitingInput, inDst := some 1, supplies := [10, 11] }) (fun t => (t.readReg 1, t.pc, t.st, t.supplies)) = some (10, 2, .running, [11]) := by decide
/-- S7. -/
theorem test_exhausted : seen ({ State.reset with pc := 32768, st := .running }) (fun t => (t.st, t.term, t.pc)) = some (.halted, .stopped .pcExhausted, 32768) := by decide
/-- S5. -/
theorem test_operand_past_the_end : seen (imgAt 32766 [9]) (fun t => (t.term, t.finfo, t.pc)) = some (.raised .addressingFault, 32768, 32766) := by decide
/-- S6. -/
theorem test_last_cells : seen (imgAt 32765 [1, 32768, 7]) (fun t => (t.readReg 0, t.pc)) = some (7, 32768) := by decide
/-- S2: the opcode cell is not resolved. -/
theorem test_unsupported : seen (img [32768]) (fun t => (t.st, t.term, t.finfo, t.pc)) = some (.faulted, .raised .unsupportedOpcode, 32768, 0) := by decide
/-- S14 to S18: the answers of the calls. -/
theorem test_answers : answer (stepCall { img [21] with st := .awaitingInput }) = some .refused ∧
    answer (supplyCall 5 { img [21] with st := .running }) = some .refused ∧
    answer (supplyCall 5 { img [21] with st := .halted, term := .stopped .haltInstruction }) =
      some (.terminal (.stopped .haltInstruction)) ∧
    answer (stepCall (img [21])) = some (.done .noop .running) ∧
    answer (stepCall (img [22])) = some (.fault (.raised .unsupportedOpcode) 22) ∧
    answer (stepCall (img [18])) = some (.done .ret .halted) := by decide

/-- A table word placed after reset is the first instruction to run: NOOP. -/
theorem test_withFetchWord : seen (State.reset.withFetchWord 16 21) (fun t => (t.pc, t.st)) = some (1, .running) := by
  decide

/-! ## Witnesses: states and operands that meet the hypotheses of the statements -/

theorem witness_HaltStopsAtTheCursorForEver :
    (imgAt 32767 [0]).active ∧ (imgAt 32767 [0]).pc ≤ 32767 ∧ fetch (imgAt 32767 [0]) = .instr .halt [] := by decide
theorem witness_JmpGoesToItsTarget :
    (imgAt 32766 [6, 0]).active ∧ (imgAt 32766 [6, 0]).pc ≤ 32767 ∧
      fetch (imgAt 32766 [6, 0]) = .instr (.jmp (.lit 0)) [] := by decide
theorem witness_InLatchesItsDestinationAndWaits :
    (imgAt 32766 [20, 32775]).active ∧ (imgAt 32766 [20, 32775]).pc ≤ 32767 ∧
      fetch (imgAt 32766 [20, 32775]) = .instr (.inp (.reg 7)) [] := by decide

/-- A state of a finite build. -/
def finite (capacity : Nat) (stack : List Word) (pc : Nat) : State :=
  { State.reset with cfg := { stackCapacity := some capacity }, stack := stack, pc := pc }

/-- Room on the stack, for PUSH, PushThenPopGivesTheValueBack and CallThenRetReturnsAfterTheCall: unbounded, and one entry
short of the capacity. -/
theorem witness_stack_room :
    (∀ n, State.reset.cfg.stackCapacity = some n → State.reset.stack.length < n) ∧
      ∀ n, (finite 1 [] 0).cfg.stackCapacity = some n → (finite 1 [] 0).stack.length < n := by
  refine ⟨fun n h => ?_, fun n h => ?_⟩
  · cases h
  · cases h; decide
theorem witness_PushAddsOneEntryUnlessTheFiniteStackIsFull :
    (finite 0 [] 0).cfg.stackCapacity = some (finite 0 [] 0).stack.length ∧
      (finite 1 [5] 0).cfg.stackCapacity = some (finite 1 [5] 0).stack.length := by decide
theorem witness_PopTakesTheTopEntryOrUnderflows :
    (finite 1 [5] 0).stack = 5 :: [] ∧ State.reset.stack = [] := by decide
theorem witness_EqWritesOneExactlyWhenEqual :
    (State.reset.resolve (.reg 0)).toNat = (State.reset.resolve (.lit 0)).toNat ∧
      (State.reset.resolve (.lit 32767)).toNat ≠ (State.reset.resolve (.lit 0)).toNat := by decide
theorem witness_GtWritesOneExactlyWhenGreaterUnsigned :
    (State.reset.resolve (.lit 5)).toNat < (State.reset.resolve (.lit 6)).toNat ∧
      (State.reset.resolve (.lit 5)).toNat ≤ (State.reset.resolve (.lit 5)).toNat := by decide
/-- For JtJumpsExactlyOnNonZero and JfJumpsExactlyOnZero. -/
theorem witness_conditional_jumps :
    (State.reset.resolve (.lit 1)).toNat ≠ 0 ∧ (State.reset.resolve (.lit 32767)).toNat ≠ 0 ∧
      (State.reset.resolve (.reg 0)).toNat = 0 := by decide
theorem witness_ModWritesTheRemainderOrDividesByZero :
    (State.reset.resolve (.lit 1)).toNat ≠ 0 ∧ (State.reset.resolve (.lit 0)).toNat = 0 := by decide
theorem witness_RmemReadsAWordCellOrRaisesInvalidWord :
    ((img [32767, 32768]).mem.read ((img [32767, 32768]).resolve (.lit 0)).toNat).toNat < 32768 ∧
      32768 ≤ ((img [32767, 32768]).mem.read ((img [32767, 32768]).resolve (.lit 1)).toNat).toNat := by decide
theorem witness_WmemWritesExactlyTheAddressedCell :
    (img [16, 32767, 5]).mem.wf = true := by decide
/-- Also for CallThenRetReturnsAfterTheCall. -/
theorem witness_CallPushesTheReturnAddressAndJumps :
    (finite 1 [] 32765).pc + 2 ≤ 32767 ∧ (∀ n, (finite 1 [] 32765).cfg.stackCapacity = some n →
      (finite 1 [] 32765).stack.length < n) ∧ 32767 < (finite 1 [] 32766).pc + 2 ∧
      (finite 1 [5] 32765).pc + 2 ≤ 32767 ∧ (finite 1 [5] 32765).cfg.stackCapacity = some (finite 1 [5] 32765).stack.length := by
  refine ⟨by decide, fun n h => ?_, by decide, by decide, by decide⟩
  cases h; decide
theorem witness_RetReturnsToTheTopEntryOrHalts :
    (finite 1 [5] 0).stack = 5 :: [] ∧ (imgAt 32767 [18]).stack = [] ∧ (imgAt 32767 [18]).active ∧
      (imgAt 32767 [18]).pc ≤ 32767 ∧ fetch (imgAt 32767 [18]) = .instr .ret [] := by decide

/-- A state that waits for input in register 7, with announced codes. -/
def waiting (codes : List Word) : State :=
  { imgAt 32766 [20, 32775] with st := .awaitingInput, inDst := some 7, supplies := codes }

/-- An ended state. -/
def ended : State := { State.reset with st := .halted, term := .stopped .haltInstruction }

/-- A Faulted state. -/
def broken : State := { State.reset with st := .faulted, term := .raised .stackUnderflow }

theorem witness_SupplyCompletesTheSuspendedIn :
    (waiting []).st = .awaitingInput ∧ (waiting []).inDst = some 7 ∧ State.reset.active ∧
      ({ State.reset with st := .running } : State).active ∧ ended.ended ∧ broken.ended := by decide
theorem witness_OperandCellsResolveByTheirValue :
    (32767 : Cell).toNat < 32768 ∧ (32768 : Cell).toNat = 32768 + (0 : RegIdx).val ∧
      (32775 : Cell).toNat = 32768 + (7 : RegIdx).val ∧ 32776 ≤ (32776 : Cell).toNat := by decide
theorem witness_EveryDecodedInstructionHasItsOneEncoding :
    decode [2, 32775, 9] = .instr (.push (.reg 7)) [9] := by decide
theorem witness_DecodingIsTotalInThePriorityOfTheSixCases :
    21 < (22 : Cell).toNat ∧ opcode .add = 9 ∧ ([32776, 1] : List Cell).length < arity .add ∧
      (2 < arity .add ∧ arity .add ≤ ([5, 1, 32776] : List Cell).length ∧
        (∀ j, j < 2 → (([5, 1, 32776] : List Cell).getD j 0).toNat < 32776) ∧
        32776 ≤ (([5, 1, 32776] : List Cell).getD 2 0).toNat) ∧
      (arity .add ≤ ([32767, 1, 2] : List Cell).length ∧
        (∀ k, k < arity .add → (([32767, 1, 2] : List Cell).getD k 0).toNat < 32776) ∧
        Mnemonic.hasDestination .add = true ∧ (([32767, 1, 2] : List Cell).getD 0 0).toNat < 32768) ∧
      (arity .add ≤ ([32768, 32775, 2] : List Cell).length ∧
        (∀ k, k < arity .add → (([32768, 32775, 2] : List Cell).getD k 0).toNat < 32776) ∧
        32768 ≤ (([32768, 32775, 2] : List Cell).getD 0 0).toNat) := by decide
theorem witness_StepRunsTheDecodedInstruction :
    (imgAt 32767 [21]).active ∧ (imgAt 32767 [21]).pc ≤ 32767 ∧
      fetch (imgAt 32767 [21]) = .instr .noop [] ∧
      ∃ t, exec .noop (imgAt 32767 [21]) = .next t := ⟨by decide, by decide, by decide, _, rfl⟩
theorem witness_StepRunsTheInstructionWhoseCellsStandAtThePc :
    (imgAt 32764 [9, 32768, 1, 2]).active ∧
      (imgAt 32764 [9, 32768, 1, 2]).pc + (encode (.add (.reg 0) (.lit 1) (.lit 2))).length ≤ 32768 ∧
      ∀ k, k < (encode (.add (.reg 0) (.lit 1) (.lit 2))).length →
        (imgAt 32764 [9, 32768, 1, 2]).mem.read ((imgAt 32764 [9, 32768, 1, 2]).pc + k) =
          (encode (.add (.reg 0) (.lit 1) (.lit 2))).getD k 0 := by decide
theorem witness_StepAtTheExhaustedPcHalts :
    ({ State.reset with pc := 32768 } : State).active ∧ ({ State.reset with pc := 32768 } : State).pc = 32768 := by decide
theorem witness_FetchFaultsOnUnsupportedOpcodesAndMissingOperands :
    (imgAt 32767 [22]).active ∧ (imgAt 32767 [22]).pc ≤ 32767 ∧
      21 < ((imgAt 32767 [22]).mem.read (imgAt 32767 [22]).pc).toNat ∧
      opcode .add = (imgAt 32765 [9]).mem.read (imgAt 32765 [9]).pc ∧ 32767 < (imgAt 32765 [9]).pc + arity .add := by decide

/-- The hypotheses of OperandChecksPutInvalidOperandBeforeInvalidDestination at the end of memory: the third operand
invalid after two valid ones, the first one invalid, and a literal write target. -/
theorem witness_invalid_operand :
    (imgAt 32764 [9, 5, 1, 32776]).active ∧ opcode .add = (imgAt 32764 [9, 5, 1, 32776]).mem.read (imgAt 32764 [9, 5, 1, 32776]).pc ∧
      (imgAt 32764 [9, 5, 1, 32776]).pc + arity .add ≤ 32767 ∧ 3 ≤ arity .add ∧
      (((imgAt 32764 [9, 5, 1, 32776]).mem.read ((imgAt 32764 [9, 5, 1, 32776]).pc + 1)).toNat < 32776 ∧
        ((imgAt 32764 [9, 5, 1, 32776]).mem.read ((imgAt 32764 [9, 5, 1, 32776]).pc + 2)).toNat < 32776 ∧
        32776 ≤ ((imgAt 32764 [9, 5, 1, 32776]).mem.read ((imgAt 32764 [9, 5, 1, 32776]).pc + 3)).toNat) ∧
      32776 ≤ ((imgAt 32764 [9, 32776, 1, 2]).mem.read ((imgAt 32764 [9, 32776, 1, 2]).pc + 1)).toNat := by decide
theorem witness_invalid_destination :
    (imgAt 32764 [9, 32767, 32775, 2]).active ∧ opcode .add = (imgAt 32764 [9, 32767, 32775, 2]).mem.read (imgAt 32764 [9, 32767, 32775, 2]).pc ∧
      (imgAt 32764 [9, 32767, 32775, 2]).pc + arity .add ≤ 32767 ∧ Mnemonic.hasDestination .add = true ∧
      (((imgAt 32764 [9, 32767, 32775, 2]).mem.read ((imgAt 32764 [9, 32767, 32775, 2]).pc + 1)).toNat < 32768 ∧
        ((imgAt 32764 [9, 32767, 32775, 2]).mem.read ((imgAt 32764 [9, 32767, 32775, 2]).pc + 2)).toNat < 32776 ∧
        ((imgAt 32764 [9, 32767, 32775, 2]).mem.read ((imgAt 32764 [9, 32767, 32775, 2]).pc + 3)).toNat < 32776) := by decide
theorem witness_EndedMachinesAbsorbEveryCall :
    ended.ended ∧ broken.ended := by decide
theorem witness_CallsAgainstTheProtocolAreRefusedWithoutEffect :
    (waiting []).st = .awaitingInput ∧ State.reset.active ∧ ended.ended := by decide
theorem witness_StepIsTheNextCallOfAProtocolKeepingHost :
    (waiting [65]).st = .awaitingInput ∧ (waiting [65]).supplies = 65 :: [] ∧ (waiting []).supplies = [] ∧
      State.reset.st ≠ .awaitingInput := by decide

/-- The invariant (InvariantIsKeptByEveryStep, StepNeverStopsUnderTheInvariant) holds in every kind of state: ready,
waiting at the last possible address, ended, faulted, exhausted, and with a full stack; each of them has a next state. -/
theorem witness_invariant :
    State.reset.Inv ∧ (waiting [65]).Inv ∧ (waiting []).Inv ∧ ended.Inv ∧ broken.Inv ∧
      ({ State.reset with pc := 32768 } : State).Inv ∧ (finite 1 [5] 0).Inv := ⟨by decide, by decide, by decide, by decide, by decide, by decide, by decide⟩
theorem witness_InvariantIsKeptByEveryStep :
    (waiting [65]).Inv ∧ ∃ t, step (waiting [65]) = .next t := ⟨by decide, _, rfl⟩
theorem witness_LoadedImagesRunSafelyWithTheInvariantForEver :
    (List.replicate 32768 (21 : Cell)).length ≤ 32768 := Nat.le_of_eq List.length_replicate
theorem witness_LoadPlacesTheImageUnmodified :
    ([] : List Cell).length ≤ 32768 ∧ 32768 < (List.replicate 32769 (21 : Cell)).length := by
  refine ⟨by decide, ?_⟩
  rw [List.length_replicate]
  decide
theorem witness_MemoriesThatReadAlikeAreEqual :
    Memory.wf [(0, 9), (32767, 1)] = true ∧ ∀ p, Memory.read [(0, 9), (32767, 1)] p = Memory.read [(0, 9), (32767, 1)] p := ⟨by decide, fun _ => rfl⟩
theorem witness_ExecutionStateFollowsTheTransitionTable :
    (∃ t, step ended = .next t) ∧ (∃ t, step (waiting [65]) = .next t) ∧ (∃ t, step (img [20, 32768]) = .next t) ∧
      ended.ended ∧ (waiting [65]).st = .awaitingInput ∧ (img [20, 32768]).active := ⟨⟨_, rfl⟩, ⟨_, rfl⟩, ⟨_, rfl⟩, by decide, by decide, by decide⟩
theorem witness_FaultsChangeOnlyTheStatusElements :
    (img [22]).st ≠ .faulted ∧ ∃ t, step (img [22]) = .next t ∧ t.st = .faulted := ⟨by decide, _, rfl, by decide⟩
theorem witness_OnlyTheDestinationRegisterIsWritten :
    (∃ t, exec (.add (.reg 1) (.lit 1) (.lit 2)) State.reset = .next t) ∧
      (Instr.add (.reg 1) (.lit 1) (.lit 2)).destination ≠ some (.reg 0) ∧
      ∃ t, exec (.inp (.reg 7)) State.reset = .next t := ⟨⟨_, rfl⟩, by decide, ⟨_, rfl⟩⟩
theorem witness_OnlyWmemChangesMemory :
    (∃ t, exec (.push (.lit 1)) State.reset = .next t) ∧ ∀ a b, Instr.push (.lit 1) ≠ .wmem a b := ⟨⟨_, rfl⟩, nofun⟩
theorem witness_OnlyStackInstructionsChangeTheStack :
    (∃ t, exec (.push (.lit 1)) State.reset = .next t ∧ t.st = .running) ∧
      (∃ t, exec .ret (finite 1 [5] 0) = .next t ∧ t.st = .running) ∧
      (∃ t, exec .noop State.reset = .next t ∧ t.st = .running ∧ Instr.noop.mnemonic ∉ [.push, .call, .pop, .ret]) ∧
      ∃ t, exec (.pop (.reg 0)) State.reset = .next t ∧ t.st ≠ .running := ⟨⟨_, rfl, rfl⟩, ⟨_, rfl, rfl⟩, ⟨_, rfl, rfl, by decide⟩, ⟨_, rfl, by decide⟩⟩
theorem witness_OnlyOutEmits :
    (∃ t, exec (.out (.lit 32767)) State.reset = .next t) ∧ (∃ t, exec .noop State.reset = .next t) ∧
      ∀ a, Instr.noop ≠ .out a := ⟨⟨_, rfl⟩, ⟨_, rfl⟩, nofun⟩
theorem witness_StatusElementsChangeOnlyAtAnEndOrAnIn :
    (∃ t, exec .noop State.reset = .next t ∧ t.st = .running ∧ Instr.noop.mnemonic ≠ .inp) ∧
      (∃ t, exec (.inp (.reg 7)) State.reset = .next t ∧ t.st = .awaitingInput) ∧
      (∃ t, exec .halt State.reset = .next t ∧ t.st = .halted) ∧
      ∃ t, exec (.pop (.reg 0)) State.reset = .next t ∧ t.st = .faulted := ⟨⟨_, rfl, rfl, by decide⟩, ⟨_, rfl, rfl⟩, ⟨_, rfl, rfl⟩, ⟨_, rfl, rfl⟩⟩
theorem witness_ThePcGoesToTheCursorOrToAWordTarget :
    (∃ t, exec (.jmp (.lit 32767)) State.reset = .next t ∧ t.st = .running) ∧
      ∃ t, exec (.pop (.reg 0)) State.reset = .next t ∧ t.st = .faulted := ⟨⟨_, rfl, rfl⟩, ⟨_, rfl, rfl⟩⟩
theorem witness_NoStepCreatesACellThatIsNoWord :
    (img [16, 32767, 32768]).mem.wf = true ∧ (∃ t, step (img [16, 32767, 32768]) = .next t ∧
      32768 ≤ (t.mem.read 2).toNat) := ⟨by decide, _, rfl, by decide⟩

/-- The hypotheses of AStoredCellIsFetchedByTheVeryNextStep with each of the three stored values, at address 0 and for a
target at the last address. -/
theorem witness_AStoredCellIsFetchedByTheVeryNextStep :
    (imgAt 32764 [16, 32767, 22]).active ∧ (imgAt 32764 [16, 32767, 22]).mem.wf = true ∧
      fetch (imgAt 32764 [16, 32767, 22]) = .instr (.wmem (.lit 32767) (.lit 22)) [] ∧
      ((imgAt 32764 [16, 32767, 22]).resolve (.lit 32767)).toNat = (imgAt 32764 [16, 32767, 22]).pc + 3 ∧
      21 < ((imgAt 32764 [16, 32767, 22]).resolve (.lit 22)).toNat ∧
      fetch (img [16, 3, 21]) = .instr (.wmem (.lit 3) (.lit 21)) [] ∧
      ((img [16, 3, 21]).resolve (.lit 3)).toNat = (img [16, 3, 21]).pc + 3 ∧
      fetch (img [16, 3, 0]) = .instr (.wmem (.lit 3) (.lit 0)) [] := by decide
theorem witness_AnInputFollowedByItsOutputEchoesTheCode :
    ({ imgAt 32764 [20, 32768, 19, 32768] with supplies := [72] } : State).active ∧
      (imgAt 32764 [20, 32768, 19, 32768]).pc + 3 ≤ 32767 ∧
      (imgAt 32764 [20, 32768, 19, 32768]).mem.read 32764 = 20 ∧
      (imgAt 32764 [20, 32768, 19, 32768]).mem.read 32765 = encodeOperand (.reg 0) ∧
      (imgAt 32764 [20, 32768, 19, 32768]).mem.read 32766 = 19 ∧
      (imgAt 32764 [20, 32768, 19, 32768]).mem.read 32767 = encodeOperand (.reg 0) := by decide
theorem witness_AddingTheComplementSubtracts :
    (0 : Word).toNat = (32768 - (0 : Word).toNat) % 32768 ∧
      (32767 : Word).toNat = (32768 - (1 : Word).toNat) % 32768 ∧
      (1 : Word).toNat ≤ (State.reset.resolve (.lit 1)).toNat := by decide

end Sys2Proof.Tests
end

section
/-! The decoder on any cells (R79): what it answers on too few cells, on an invalid operand cell and on the cells of an
instruction, and from these the six cases of `classify`. -/

namespace Sys2Proof

/-! ## Opcode cells and operand cells -/

theorem toNat_opcode_le (m : Mnemonic) : (opcode m).toNat ≤ 21 := by cases m <;> decide

/-- R77: a cell above the last opcode of R76 is the cell of no row. -/
theorem mnemonicOf_eq_none_of_gt {op : Cell} (h : 21 < op.toNat) : mnemonicOf op = none := by
  refine Option.eq_none_iff_forall_ne_some.mpr fun m hm => ?_
  have := toNat_opcode_le m
  rw [opcode_of_mnemonicOf hm] at this
  omega

theorem exists_decodeOperand_eq_some {w : Cell} (h : w.toNat < 32776) : ∃ o, decodeOperand w = some o :=
  Option.ne_none_iff_exists'.mp fun hn => absurd (decodeOperand_eq_none.mp hn) (Nat.not_le.mpr h)

/-- Cells that are all valid are the cells of an operand list. -/
theorem exists_map_encodeOperand {cells : List Cell} (h : ∀ w ∈ cells, w.toNat < 32776) :
    ∃ os : List Operand, os.map encodeOperand = cells := by
  have hcells : cells ∈ {l : List Cell | ∀ w ∈ l, w ∈ Set.range encodeOperand} := fun w hw =>
    (exists_decodeOperand_eq_some (h w hw)).imp fun _ => encodeOperand_of_decodeOperand
  rwa [← Set.range_list_map] at hcells

/-! ## The rows of R76 and the instructions they make -/

/-- The instructions a format makes are those of row `m`, with the operands they were made of. -/
def Shape.MakesRow (m : Mnemonic) : Shape → Prop
  | .f0 i => i.mnemonic = m ∧ i.operands = []
  | .f1 make => ∀ a, (make a).mnemonic = m ∧ (make a).operands = [a]
  | .f2 make => ∀ a b, (make a b).mnemonic = m ∧ (make a b).operands = [a, b]
  | .f3 make => ∀ a b c, (make a b c).mnemonic = m ∧ (make a b c).operands = [a, b, c]

theorem shape_makesRow (m : Mnemonic) : (shape m).MakesRow m := by
  cases m <;> simp [shape, Shape.MakesRow, Instr.mnemonic, Instr.operands]

/-- Every row has an instruction for every operand list of its arity. -/
theorem exists_instr_of_operands {m : Mnemonic} {os : List Operand} (h : os.length = arity m) :
    ∃ i : Instr, i.mnemonic = m ∧ i.operands = os := by
  have hrow := shape_makesRow m
  cases hs : shape m with
  | f0 i =>
    obtain rfl := List.length_eq_zero_iff.mp (by simpa [arity, hs] using h)
    exact ⟨i, by simpa [hs, Shape.MakesRow] using hrow⟩
  | f1 make =>
    obtain ⟨a, rfl⟩ := List.length_eq_one_iff.mp (by simpa [arity, hs] using h)
    rw [hs] at hrow
    exact ⟨make a, hrow a⟩
  | f2 make =>
    obtain ⟨a, b, rfl⟩ := List.length_eq_two.mp (by simpa [arity, hs] using h)
    rw [hs] at hrow
    exact ⟨make a b, hrow a b⟩
  | f3 make =>
    obtain ⟨a, b, c, rfl⟩ := List.length_eq_three.mp (by simpa [arity, hs] using h)
    rw [hs] at hrow
    exact ⟨make a b c, hrow a b c⟩

/-- Only the rows with a write target have a destination operand (R23). -/
theorem hasDestination_mnemonic (i : Instr) : i.mnemonic.hasDestination = i.destination.isSome := by
  cases i <;> rfl

/-- The write target stands in the first operand cell. -/
theorem getD_encode_append_of_destination {i : Instr} {d : Operand} (h : i.destination = some d) (rest : List Cell) :
    (encode i ++ rest).getD 1 0 = encodeOperand d := by
  cases i <;> cases h <;> rfl

theorem literalDst_eq_some_iff {i : Instr} {v : Word} : i.literalDst = some v ↔ i.destination = some (.lit v) := by
  unfold Instr.literalDst
  split <;> simp [*]

/-! ## What the decoder answers -/

@[simp] theorem decode_opcode_cons (m : Mnemonic) (rest : List Cell) :
    decode (opcode m :: rest) = decodeShape (shape m) rest := by simp [decode]

/-- The decoder reads back every instruction the encoder writes, whatever cells follow. -/
@[simp] theorem decode_encode_append (i : Instr) (rest : List Cell) : decode (encode i ++ rest) = .instr i rest := by
  rw [encode, List.cons_append, decode_opcode_cons]
  cases i <;> simp [Instr.mnemonic, Instr.operands, shape, decodeShape]

/-- R79 (c): fewer operand cells than the row's arity. -/
theorem decodeShape_of_length_lt {m : Mnemonic} {rest : List Cell} (h : rest.length < arity m) :
    decodeShape (shape m) rest = .reject .noOperandCell := by
  cases hs : shape m <;> simp only [arity, hs] at h
  case f0 => omega
  case f1 =>
    obtain _ | ⟨w1, rest⟩ := rest
    · rfl
    · simp only [List.length_cons] at h; omega
  case f2 =>
    obtain _ | ⟨w1, _ | ⟨w2, rest⟩⟩ := rest
    · rfl
    · rfl
    · simp only [List.length_cons] at h; omega
  case f3 =>
    obtain _ | ⟨w1, _ | ⟨w2, _ | ⟨w3, rest⟩⟩⟩ := rest
    · rfl
    · rfl
    · rfl
    · simp only [List.length_cons] at h; omega

/-- R79 (d), R96: the first invalid operand cell is the one reported, once all operand cells are there. -/
theorem decodeShape_of_invalid {m : Mnemonic} {cells : List Cell} {k : Nat} (hk : k < arity m)
    (hlen : arity m ≤ cells.length) (hvalid : ∀ j, j < k → (cells.getD j 0).toNat < 32776)
    (hbad : 32776 ≤ (cells.getD k 0).toNat) :
    decodeShape (shape m) cells = .reject (.invalidOperand (cells.getD k 0)) := by
  have hnone := decodeOperand_eq_none.mpr hbad
  have hsome : ∀ j, j < k → ∃ o, decodeOperand (cells.getD j 0) = some o := fun j hj =>
    exists_decodeOperand_eq_some (hvalid j hj)
  cases hs : shape m <;> simp only [arity, hs] at hk hlen
  case f0 => omega
  case f1 =>
    obtain _ | ⟨w1, rest⟩ := cells
    · simp at hlen
    · obtain rfl : k = 0 := by omega
      simp [decodeShape, show decodeOperand w1 = none from hnone]
  case f2 =>
    obtain _ | ⟨w1, _ | ⟨w2, rest⟩⟩ := cells
    · simp at hlen
    · simp at hlen
    · obtain rfl | rfl : k = 0 ∨ k = 1 := by omega
      · simp [decodeShape, show decodeOperand w1 = none from hnone]
      · obtain ⟨o1, (h1 : decodeOperand w1 = some o1)⟩ := hsome 0 (by omega)
        simp [decodeShape, h1, show decodeOperand w2 = none from hnone]
  case f3 =>
    obtain _ | ⟨w1, _ | ⟨w2, _ | ⟨w3, rest⟩⟩⟩ := cells
    · simp at hlen
    · simp at hlen
    · simp at hlen
    · obtain rfl | rfl | rfl : k = 0 ∨ k = 1 ∨ k = 2 := by omega
      · simp [decodeShape, show decodeOperand w1 = none from hnone]
      · obtain ⟨o1, (h1 : decodeOperand w1 = some o1)⟩ := hsome 0 (by omega)
        simp [decodeShape, h1, show decodeOperand w2 = none from hnone]
      · obtain ⟨o1, (h1 : decodeOperand w1 = some o1)⟩ := hsome 0 (by omega)
        obtain ⟨o2, (h2 : decodeOperand w2 = some o2)⟩ := hsome 1 (by omega)
        simp [decodeShape, h1, h2, show decodeOperand w3 = none from hnone]

/-- An opcode cell followed by all its operand cells, each valid, begins with the encoding of an instruction. -/
theorem exists_encode_append {m : Mnemonic} {cells : List Cell} (hlen : arity m ≤ cells.length)
    (hvalid : ∀ k, k < arity m → (cells.getD k 0).toNat < 32776) :
    ∃ i : Instr, i.mnemonic = m ∧ encode i = opcode m :: cells.take (arity m) := by
  have htake : ∀ w ∈ cells.take (arity m), w.toNat < 32776 := by
    intro w hw
    obtain ⟨k, hk, rfl⟩ := List.mem_take_iff_getElem.mp hw
    rw [← List.getD_eq_getElem _ 0]
    exact hvalid k (by omega)
  obtain ⟨os, hos⟩ := exists_map_encodeOperand htake
  have hcount : os.length = arity m := by
    rw [← List.length_map (f := encodeOperand), hos, List.length_take_of_le hlen]
  obtain ⟨i, hi, rfl⟩ := exists_instr_of_operands hcount
  exact ⟨i, hi, by rw [encode, hi, hos]⟩

/-! ## The six cases of R79 -/

/-- R79 (e): an instruction with a literal write target is answered by the cell of that literal. -/
theorem classify_encode_of_literal {i : Instr} {v : Word} (h : i.destination = some (.lit v)) (rest : List Cell) :
    classify (encode i ++ rest) = .invalidDestination (encodeOperand (.lit v)) := by
  simp [classify, literalDst_eq_some_iff.mpr h, encodeOperand]

/-- R79 (f): an instruction without a literal write target is the answer itself. -/
theorem classify_encode_of_not_literal {i : Instr} (h : ∀ v, i.destination ≠ some (.lit v)) (rest : List Cell) :
    classify (encode i ++ rest) = .decoded i := by
  have hnone : i.literalDst = none :=
    Option.eq_none_iff_forall_ne_some.mpr fun v hv => h v (literalDst_eq_some_iff.mp hv)
  simp [classify, hnone]

/-- Settles O27: each case by what the decoder answers on its cells; in the last two the cells are an instruction's
encoding, and its first operand cell says whether the write target is a literal. -/
theorem decodingIsTotalInThePriorityOfTheSixCases :
    Obligations.DecodingIsTotalInThePriorityOfTheSixCases := by
  refine ⟨rfl, fun op cells => ⟨fun hop => ?_, ?_⟩⟩
  · simp [classify, decode, mnemonicOf_eq_none_of_gt hop]
  rintro m rfl
  refine ⟨fun hlen => ?_, fun k hk hlen hvalid hbad => ?_, fun hlen hvalid => ?_⟩
  · simp [classify, decodeShape_of_length_lt hlen]
  · simp only [classify, decode_opcode_cons, decodeShape_of_invalid hk hlen hvalid hbad]
  obtain ⟨i, rfl, hi⟩ := exists_encode_append hlen hvalid
  have hcells : opcode i.mnemonic :: cells = encode i ++ cells.drop (arity i.mnemonic) := by
    rw [hi, List.cons_append, List.take_append_drop]
  have hcell : ∀ d, i.destination = some d → cells.getD 0 0 = encodeOperand d := fun d hd => by
    rw [← getD_encode_append_of_destination hd (cells.drop (arity i.mnemonic)), ← hcells, List.getD_cons_succ]
  rw [hcells]
  refine ⟨fun hdst hlit => ?_, fun hreg => ⟨i, ?_, rfl, hi⟩⟩
  · obtain ⟨d, hd⟩ := Option.isSome_iff_exists.mp (hasDestination_mnemonic i ▸ hdst)
    rw [hcell d hd] at hlit ⊢
    cases d with
    | lit v => exact classify_encode_of_literal hd _
    | reg r => rw [toNat_encodeReg] at hlit; omega
  · refine classify_encode_of_not_literal (fun v hv => ?_) _
    have hge := hreg (by simp [hasDestination_mnemonic, hv])
    rw [hcell _ hv, encodeOperand, toNat_zext16] at hge
    exact absurd v.isLt (Nat.not_lt.mpr hge)

end Sys2Proof
end

section
/-! The step and its operand checks (spec/40_step_and_operands.md): what a step does once the fetch has answered, what
the fetch answers on an instruction that lies inside memory, and that neither looks at `st`. -/

namespace Sys2Proof.Machine

variable {s : State}

/-! ## The step after its fetch -/

/-- The `step()` call of R92 in Ready and Running. -/
theorem call_step_active (h : s.active) : call .step s = runInstr s := by
  rcases h with h | h <;> simp [call, stepCall, h]

/-- R99: at the exhausted `pc` no cell is fetched. -/
theorem runInstr_of_exhausted (h : s.pc = 32768) : runInstr s = .next (s.stop .pcExhausted, .exhausted) := by
  rw [runInstr, if_neg (by omega), fetch_of_exhausted (by omega)]

theorem pc_lt_of_fetch_ne (h : fetch s ≠ .reject .noOpcodeCell) : s.pc < 32768 :=
  Nat.lt_of_not_le fun hp => h (fetch_of_exhausted hp)

theorem step_of_fetch_instr {i : Instr} {rest : List Cell} (h : s.active) (hf : fetch s = .instr i rest) :
    step s = exec i s := by
  have hp : s.pc < 32768 := pc_lt_of_fetch_ne (by simp [hf])
  rw [step_active h, runInstr, if_neg (by omega), hf]
  exact stateOf_report _ _

theorem step_of_fetch_reject {d : DecodeError} {e : ErrorKind} {info : Cell} (h : s.active)
    (hf : fetch s = .reject d) (hd : decodeFault d = some (e, info)) : step s = .next (s.raise e info) := by
  have hp : s.pc < 32768 := pc_lt_of_fetch_ne (by rw [hf]; rintro ⟨⟩; cases hd)
  rw [step_active h, runInstr, if_neg (by omega), hf]
  cases d <;> cases hd <;> rfl

/-! ## The fetch of an instruction that lies inside memory -/

/-- The operand cells the fetch reads for a row `m` at `pc` (R94, R95). -/
def State.operandCells (s : State) (m : Mnemonic) : List Cell := cellsFrom s.mem (s.pc + 1) (arity m)

theorem State.length_operandCells {m : Mnemonic} (h : s.pc + arity m ≤ 32767) :
    (s.operandCells m).length = arity m := length_cellsFrom _ _ _ (by omega)

/-- Operand `k` of R93 to R96, counted from 1, is the cell at `pc + k`. -/
theorem State.getD_operandCells {m : Mnemonic} {k : Nat} (h : s.pc + arity m ≤ 32767) (hk : k < arity m) :
    (s.operandCells m).getD k 0 = s.mem.read (s.pc + (k + 1)) := by
  rw [List.getD_eq_getElem _ _ (by rwa [length_operandCells h])]
  exact (getElem_cellsFrom ..).trans (by congr 1; omega)

theorem fetch_of_opcode {m : Mnemonic} (hop : opcode m = s.mem.read s.pc) (hp : s.pc ≤ 32767) :
    fetch s = decode (opcode m :: s.operandCells m) := by
  rw [fetch_of_pc_lt (by omega), ← hop, operandCount, mnemonicOf_opcode, State.operandCells]

/-- R96: the first invalid operand cell is the one the fetch reports. -/
theorem fetch_of_invalid {m : Mnemonic} {k : Nat} (hop : opcode m = s.mem.read s.pc) (hfit : s.pc + arity m ≤ 32767)
    (hk : k < arity m) (hvalid : ∀ j, j < k → (s.mem.read (s.pc + (j + 1))).toNat < 32776)
    (hbad : 32776 ≤ (s.mem.read (s.pc + (k + 1))).toNat) :
    fetch s = .reject (.invalidOperand (s.mem.read (s.pc + (k + 1)))) := by
  rw [fetch_of_opcode hop (by omega), decode_opcode_cons, ← State.getD_operandCells hfit hk]
  refine decodeShape_of_invalid hk (State.length_operandCells hfit).ge (fun j hj => ?_) ?_
  · rw [State.getD_operandCells hfit (by omega)]; exact hvalid j hj
  · rwa [State.getD_operandCells hfit hk]

/-- With every operand cell valid the fetch gives an instruction of the row, whose cells are those read. -/
theorem exists_fetch_instr {m : Mnemonic} (hop : opcode m = s.mem.read s.pc) (hfit : s.pc + arity m ≤ 32767)
    (hvalid : ∀ k, k < arity m → (s.mem.read (s.pc + (k + 1))).toNat < 32776) :
    ∃ i : Instr, i.mnemonic = m ∧ encode i = opcode m :: s.operandCells m ∧ fetch s = .instr i [] := by
  have hlen := State.length_operandCells hfit
  obtain ⟨i, hi, henc⟩ := exists_encode_append hlen.ge fun k hk => by
    rw [State.getD_operandCells hfit hk]; exact hvalid k hk
  rw [List.take_of_length_le hlen.le] at henc
  refine ⟨i, hi, henc, ?_⟩
  rw [fetch_of_opcode hop (by omega), ← henc, ← List.append_nil (encode i), decode_encode_append]

/-! ## A literal write target -/

/-- R74, R91: every instruction with a literal write target raises `InvalidDestination` and does nothing else. -/
theorem exec_of_literal_destination {i : Instr} {v : Word} (h : i.destination = some (.lit v)) (s : State) :
    exec i s = .next (s.raise .invalidDestination (encodeOperand (.lit v))) := by
  cases i <;> cases h <;> rfl

theorem arity_pos_of_hasDestination {m : Mnemonic} (h : m.hasDestination = true) : 0 < arity m := by
  revert h
  cases m <;> decide

/-- A write-target cell below 32768 is a literal: a register's cell is 32768 or more (R73). -/
theorem exists_literal_destination {i : Instr} {w : Cell} (hdst : i.mnemonic.hasDestination = true)
    (henc : (encode i).getD 1 0 = w) (hw : w.toNat < 32768) :
    ∃ v, i.destination = some (.lit v) ∧ encodeOperand (.lit v) = w := by
  obtain ⟨d, hd⟩ := Option.isSome_iff_exists.mp (hasDestination_mnemonic i ▸ hdst)
  have hcell : encodeOperand d = w := by
    rw [← getD_encode_append_of_destination hd [], List.append_nil, henc]
  cases d with
  | lit v => exact ⟨v, hd, hcell⟩
  | reg r =>
    rw [← hcell, toNat_encodeReg] at hw
    omega

/-- Settles O33: the fetch reports the first invalid operand cell; when there is none it gives an instruction, and one
with a literal write target raises before it does anything else. -/
theorem operandChecksPutInvalidOperandBeforeInvalidDestination :
    Obligations.OperandChecksPutInvalidOperandBeforeInvalidDestination := by
  refine fun s m hact hop hfit => ⟨fun k hk1 hk hvalid hbad => ?_, fun hvalid hdst hlit => ?_⟩
  · obtain ⟨k, rfl⟩ := Nat.exists_eq_add_of_le' hk1
    have hf := fetch_of_invalid hop hfit hk (fun j hj => hvalid (j + 1) (by omega) (by omega)) hbad
    exact step_of_fetch_reject hact hf rfl
  · obtain ⟨i, rfl, henc, hf⟩ := exists_fetch_instr hop hfit fun k hk => hvalid (k + 1) (by omega) hk
    have hcell : (encode i).getD 1 0 = s.mem.read (s.pc + 1) := by
      rw [henc, List.getD_cons_succ, State.getD_operandCells hfit (arity_pos_of_hasDestination hdst)]
    obtain ⟨v, hv, hvw⟩ := exists_literal_destination hdst hcell hlit
    rw [step_of_fetch_instr hact hf, exec_of_literal_destination hv, hvw]
    rfl

/-- Settles O31: the exhausted `pc` is met before any fetch, by the call and so by the step. -/
theorem stepAtTheExhaustedPcHalts : Obligations.StepAtTheExhaustedPcHalts := by
  refine fun s hact hpc => ⟨?_, ?_⟩
  · rw [call_step_active hact, runInstr_of_exhausted hpc]; rfl
  · rw [step_active hact, runInstr_of_exhausted hpc]; rfl

/-! ## Ready and Running -/

/-- R101: every instruction leaves `st` at a value of its own, whatever it was. -/
theorem exec_withSt (i : Instr) (s : State) (st : ExecState) : exec i { s with st := st } = exec i s := by
  cases i <;> rfl

/-- One instruction of a step does not look at `st`: the fetch reads memory and `pc`, and every end writes `st`. -/
theorem runInstr_withSt (s : State) (st : ExecState) : runInstr { s with st := st } = runInstr s := by
  have hf : fetch { s with st := st } = fetch s := fetch_congr rfl rfl
  rw [runInstr, runInstr, hf]
  cases fetch s with
  | instr i _ => simp only [exec_withSt]
  | reject e => cases e <;> rfl

/-- Settles O37: from both states the step is the one instruction at `pc`, which does not look at `st`. -/
theorem readyAndRunningBehaveAlike : Obligations.ReadyAndRunningBehaveAlike := by
  intro s
  rw [step_active (.inl rfl), step_active (.inr rfl), runInstr_withSt s .ready, runInstr_withSt s .running]

end Sys2Proof.Machine
end

section
/-! SET, PUSH and POP (spec/41_data_movement.md): what each instruction does, once per case of its rule, and from these
that a POP after a PUSH moves the pushed value into its register. -/

namespace Sys2Proof.Machine

variable {s : State}

/-! ## One lemma per case of R120 to R122 -/

theorem exec_set_reg (d : RegIdx) (a : Operand) (s : State) :
    exec (.set (.reg d) a) s = .next ((s.writeReg d (s.resolve a)).complete (s.cursor 2)) := by
  rw [exec, execSet, withTarget_reg]

/-- R121 with room on the stack. -/
theorem exec_push_of_room (a : Operand) (h : ∀ n, s.cfg.stackCapacity = some n → s.stack.length < n) :
    exec (.push a) s = .next ((s.pushWord (s.resolve a)).complete (s.cursor 1)) := by
  rw [exec, execPush, if_neg (Bool.eq_false_iff.mp (stackFull_eq_false.mpr h))]

/-- R121 and R28: the full stack of a finite build. -/
theorem exec_push_of_full (a : Operand) (h : s.cfg.stackCapacity = some s.stack.length) :
    exec (.push a) s = .next (s.raise .stackOverflow 0) := by
  rw [exec, execPush, if_pos (stackFull_of_eq h)]

theorem exec_pop_of_cons (d : RegIdx) {v : Word} {rest : List Word} (h : s.stack = v :: rest) :
    exec (.pop (.reg d)) s = .next (((s.withStack rest).writeReg d v).complete (s.cursor 1)) := by
  rw [exec, execPop, withTarget_reg, h]

theorem exec_pop_of_nil (d : RegIdx) (h : s.stack = []) :
    exec (.pop (.reg d)) s = .next (s.raise .stackUnderflow 0) := by
  rw [exec, execPop, withTarget_reg, h]

/-! ## The obligations of the family -/

/-- Settles O2: a register destination is written, a literal one raises as in every instruction. -/
theorem setCopiesTheOperandIntoTheRegister : Obligations.SetCopiesTheOperandIntoTheRegister :=
  ⟨fun _ _ => rfl, exec_set_reg, fun _ _ s => exec_of_literal_destination rfl s⟩

/-- Settles O3: the two cases of the stack's room. -/
theorem pushAddsOneEntryUnlessTheFiniteStackIsFull : Obligations.PushAddsOneEntryUnlessTheFiniteStackIsFull :=
  ⟨fun _ => rfl, fun a _ => ⟨exec_push_of_room a, exec_push_of_full a⟩⟩

/-- Settles O4: the two cases of the stack for a register destination; a literal one raises before the stack is
looked at. -/
theorem popTakesTheTopEntryOrUnderflows : Obligations.PopTakesTheTopEntryOrUnderflows :=
  ⟨fun _ => rfl, fun d _ _ _ => exec_pop_of_cons d, fun d _ => exec_pop_of_nil d,
    fun _ s => exec_of_literal_destination rfl s⟩

/-- Settles O57: the PUSH leaves its value on top of the old stack, so the POP takes that value and restores the
stack. -/
theorem pushThenPopGivesTheValueBack : Obligations.PushThenPopGivesTheValueBack := by
  intro a d s hroom
  have htop : ((s.pushWord (s.resolve a)).complete (s.cursor 1)).stack = s.resolve a :: s.stack := by simp
  exact ⟨_, exec_push_of_room a hroom, exec_pop_of_cons d htop⟩

end Sys2Proof.Machine
end

section
/-! EQ and GT (spec/42_compare.md): the number of each comparison's result, what each does to a register destination,
and from these the two rules. -/

namespace Sys2Proof.Machine

/-! ## The result Words: 0 or 1, by the operands' unsigned values -/

theorem toNat_truthWord_eqTest (a b : Word) :
    (truthWord (eqTest a b)).toNat = if a.toNat = b.toNat then 1 else 0 := by
  simp only [toNat_truthWord, eqTest_eq, decide_eq_true_eq]

theorem toNat_truthWord_gtTest (a b : Word) :
    (truthWord (gtTest a b)).toNat = if b.toNat < a.toNat then 1 else 0 := by
  simp only [toNat_truthWord, gtTest, decide_eq_true_eq]

/-! ## A register destination in R130 and R131 -/

theorem exec_eq_reg (d : RegIdx) (a b : Operand) (s : State) :
    exec (.eq (.reg d) a b) s =
      .next ((s.writeReg d (truthWord (eqTest (s.resolve a) (s.resolve b)))).complete (s.cursor 3)) := by
  rw [exec, execEq, withTarget_reg]

theorem exec_gt_reg (d : RegIdx) (a b : Operand) (s : State) :
    exec (.gt (.reg d) a b) s =
      .next ((s.writeReg d (truthWord (gtTest (s.resolve a) (s.resolve b)))).complete (s.cursor 3)) := by
  rw [exec, execGt, withTarget_reg]

/-! ## The obligations of the family -/

/-- Settles O5: the written Word is EQ's truth value, 1 on equal numbers and 0 on others; a literal destination raises as
in every instruction. -/
theorem eqWritesOneExactlyWhenEqual : Obligations.EqWritesOneExactlyWhenEqual := by
  refine ⟨fun _ _ _ => rfl, fun d a b s => ?_, fun _ _ _ s => exec_of_literal_destination rfl s⟩
  have hval := toNat_truthWord_eqTest (s.resolve a) (s.resolve b)
  exact ⟨_, fun heq => hval.trans (if_pos heq), fun hne => hval.trans (if_neg hne), exec_eq_reg d a b s⟩

/-- Settles O6: the written Word is GT's truth value, 1 when the second number is below the first and 0 otherwise, equal
numbers included; a literal destination raises as in every instruction. -/
theorem gtWritesOneExactlyWhenGreaterUnsigned : Obligations.GtWritesOneExactlyWhenGreaterUnsigned := by
  refine ⟨fun _ _ _ => rfl, fun d a b s => ?_, fun _ _ _ s => exec_of_literal_destination rfl s⟩
  have hval := toNat_truthWord_gtTest (s.resolve a) (s.resolve b)
  exact ⟨_, fun hlt => hval.trans (if_pos hlt), fun hle => hval.trans (if_neg (Nat.not_lt.mpr hle)),
    exec_gt_reg d a b s⟩

end Sys2Proof.Machine
end

section
/-! JMP, JT and JF (spec/43_jumps.md): the result of a `step()` call once the fetch has given an instruction, where each
jump goes, and from these the three rules. -/

namespace Sys2Proof.Machine

variable {s : State}

/-! ## The `step()` call after its fetch -/

/-- R103: the call answers what the instruction does, with the result of R100. -/
theorem call_step_of_fetch_instr {i : Instr} {rest : List Cell} (h : s.active) (hf : fetch s = .instr i rest) :
    call .step s = report i.mnemonic (exec i s) := by
  have hp : s.pc < 32768 := pc_lt_of_fetch_ne (by simp [hf])
  rw [call_step_active h, runInstr, if_neg (by omega), hf]

/-- R100: a completed instruction is reported as `Done(op, Running)`. -/
theorem report_complete (m : Mnemonic) (s : State) (target : Nat) :
    report m (.next (s.complete target)) = .next (s.complete target, .done m .running) := rfl

/-! ## One lemma per case of R140 to R142 -/

theorem exec_jmp (a : Operand) (s : State) : exec (.jmp a) s = .next (s.complete (s.resolve a).toNat) := by
  rw [exec, execJmp]

theorem nonZero_iff {a : Word} : nonZero a = true ↔ a.toNat ≠ 0 := by
  rw [nonZero_eq, decide_eq_true_eq]

theorem exec_jt_of_ne {a : Operand} (b : Operand) (h : (s.resolve a).toNat ≠ 0) :
    exec (.jt a b) s = .next (s.complete (s.resolve b).toNat) := by
  rw [exec, execJt, if_pos (nonZero_iff.mpr h)]

theorem exec_jt_of_eq {a : Operand} (b : Operand) (h : (s.resolve a).toNat = 0) :
    exec (.jt a b) s = .next (s.complete (s.cursor 2)) := by
  rw [exec, execJt, if_neg (nonZero_iff.not_left.mpr h)]

theorem exec_jf_of_eq {a : Operand} (b : Operand) (h : (s.resolve a).toNat = 0) :
    exec (.jf a b) s = .next (s.complete (s.resolve b).toNat) := by
  rw [exec, execJf, if_neg (nonZero_iff.not_left.mpr h)]

theorem exec_jf_of_ne {a : Operand} (b : Operand) (h : (s.resolve a).toNat ≠ 0) :
    exec (.jf a b) s = .next (s.complete (s.cursor 2)) := by
  rw [exec, execJf, if_pos (nonZero_iff.mpr h)]

/-! ## The obligations of the family -/

/-- Settles O7: JMP completes at its target on every state, so the call that fetched it reports `Done`. -/
theorem jmpGoesToItsTarget : Obligations.JmpGoesToItsTarget := by
  refine ⟨fun _ => rfl, fun a s => ⟨_, rfl, exec_jmp a s, fun rest hact _ hf => ?_⟩⟩
  rw [call_step_of_fetch_instr hact hf, exec_jmp]
  exact report_complete .jmp s _

/-- Settles O8: the two cases of JT's test. -/
theorem jtJumpsExactlyOnNonZero : Obligations.JtJumpsExactlyOnNonZero :=
  ⟨fun _ _ => rfl, fun _ b _ => ⟨exec_jt_of_ne b, exec_jt_of_eq b⟩⟩

/-- Settles O9: the two cases of JF's test, which is JT's with the targets exchanged. -/
theorem jfJumpsExactlyOnZero : Obligations.JfJumpsExactlyOnZero :=
  ⟨fun _ _ => rfl, fun _ b _ => ⟨exec_jf_of_eq b, exec_jf_of_ne b⟩⟩

end Sys2Proof.Machine
end

section
/-! ADD, MULT, MOD, AND, OR and NOT (spec/44_alu.md): the result of each operation in numbers or bits, what each
instruction does to a register destination, and from these the six rules. -/

namespace Sys2Proof.Machine

variable {s : State}

/-! ## The result Words -/

theorem toNat_aluAdd (a b : Word) : (aluAdd a b).toNat = (a.toNat + b.toNat) % 32768 := toNat_wrap15 _

theorem toNat_aluMult (a b : Word) : (aluMult a b).toNat = (a.toNat * b.toNat) % 32768 := toNat_wrap15 _

/-- R156 on a number that is a Word already: nothing is lost. -/
theorem wrap15_toNat (v : Word) : wrap15 v.toNat = v :=
  BitVec.eq_of_toNat_eq (by rw [toNat_wrap15, Nat.mod_eq_of_lt v.isLt])

theorem aluMod_eq_umod (a b : Word) : aluMod a b = a % b := by
  rw [aluMod, ← BitVec.toNat_umod, wrap15_toNat]

theorem aluAnd_eq_and (a b : Word) : aluAnd a b = a &&& b := by
  rw [aluAnd, ← BitVec.toNat_and, wrap15_toNat]

theorem aluOr_eq_or (a b : Word) : aluOr a b = a ||| b := by
  rw [aluOr, ← BitVec.toNat_or, wrap15_toNat]

/-! ## A register destination in R150 to R155 -/

theorem exec_add_reg (d : RegIdx) (a b : Operand) (s : State) :
    exec (.add (.reg d) a b) s =
      .next ((s.writeReg d (aluAdd (s.resolve a) (s.resolve b))).complete (s.cursor 3)) := by
  rw [exec, execAdd, withTarget_reg]

theorem exec_mult_reg (d : RegIdx) (a b : Operand) (s : State) :
    exec (.mult (.reg d) a b) s =
      .next ((s.writeReg d (aluMult (s.resolve a) (s.resolve b))).complete (s.cursor 3)) := by
  rw [exec, execMult, withTarget_reg]

theorem exec_mod_reg_of_ne (d : RegIdx) (a : Operand) {b : Operand} (h : (s.resolve b).toNat ≠ 0) :
    exec (.mod (.reg d) a b) s =
      .next ((s.writeReg d (aluMod (s.resolve a) (s.resolve b))).complete (s.cursor 3)) := by
  have hne : s.resolve b ≠ 0 := fun hb => h (congrArg BitVec.toNat hb)
  rw [exec, execMod, withTarget_reg, if_neg hne]

theorem exec_mod_reg_of_eq (d : RegIdx) (a : Operand) {b : Operand} (h : (s.resolve b).toNat = 0) :
    exec (.mod (.reg d) a b) s = .next (s.raise .divisionByZero 0) := by
  have heq : s.resolve b = 0 := BitVec.eq_of_toNat_eq h
  rw [exec, execMod, withTarget_reg, if_pos heq]

theorem exec_and_reg (d : RegIdx) (a b : Operand) (s : State) :
    exec (.and (.reg d) a b) s =
      .next ((s.writeReg d (aluAnd (s.resolve a) (s.resolve b))).complete (s.cursor 3)) := by
  rw [exec, execAnd, withTarget_reg]

theorem exec_or_reg (d : RegIdx) (a b : Operand) (s : State) :
    exec (.or (.reg d) a b) s =
      .next ((s.writeReg d (aluOr (s.resolve a) (s.resolve b))).complete (s.cursor 3)) := by
  rw [exec, execOr, withTarget_reg]

theorem exec_not_reg (d : RegIdx) (a : Operand) (s : State) :
    exec (.not (.reg d) a) s = .next ((s.writeReg d (aluNot (s.resolve a))).complete (s.cursor 2)) := by
  rw [exec, execNot, withTarget_reg]

/-! ## The obligations of the family -/

/-- Settles O10: the written Word is the exact sum, normalised; a literal destination raises as in every instruction. -/
theorem addWritesTheSumModulo32768 : Obligations.AddWritesTheSumModulo32768 :=
  ⟨fun _ _ _ => rfl, fun d a b s => ⟨_, toNat_aluAdd (s.resolve a) (s.resolve b), exec_add_reg d a b s⟩,
    fun _ _ _ s => exec_of_literal_destination rfl s⟩

/-- Settles O11: the written Word is the exact product, normalised; a literal destination raises as in every
instruction. -/
theorem multWritesTheProductModulo32768 : Obligations.MultWritesTheProductModulo32768 :=
  ⟨fun _ _ _ => rfl, fun d a b s => ⟨_, toNat_aluMult (s.resolve a) (s.resolve b), exec_mult_reg d a b s⟩,
    fun _ _ _ s => exec_of_literal_destination rfl s⟩

/-- Settles O12: the two cases of the divisor for a register destination, where the remainder is a Word already; a
literal destination raises before the divisor is looked at. -/
theorem modWritesTheRemainderOrDividesByZero : Obligations.ModWritesTheRemainderOrDividesByZero := by
  refine ⟨fun _ _ _ => rfl, fun d a b s hne => ⟨_, ?_, exec_mod_reg_of_ne d a hne⟩,
    fun d a _ _ => exec_mod_reg_of_eq d a, fun _ _ _ s => exec_of_literal_destination rfl s⟩
  rw [aluMod_eq_umod, BitVec.toNat_umod]

/-- Settles O13: the AND of two Words is a Word already, so normalisation keeps its bits; a literal destination raises
as in every instruction. -/
theorem andWritesTheBitwiseAnd : Obligations.AndWritesTheBitwiseAnd := by
  refine ⟨fun _ _ _ => rfl, fun d a b s => ⟨_, fun k => ?_, exec_and_reg d a b s⟩,
    fun _ _ _ s => exec_of_literal_destination rfl s⟩
  rw [aluAnd_eq_and, BitVec.getLsbD_and]

/-- Settles O14: the OR of two Words is a Word already, so normalisation keeps its bits; a literal destination raises
as in every instruction. -/
theorem orWritesTheBitwiseOr : Obligations.OrWritesTheBitwiseOr := by
  refine ⟨fun _ _ _ => rfl, fun d a b s => ⟨_, fun k => ?_, exec_or_reg d a b s⟩,
    fun _ _ _ s => exec_of_literal_destination rfl s⟩
  rw [aluOr_eq_or, BitVec.getLsbD_or]

/-- Settles O15: the written Word is the complement taken from 32767; a literal destination raises as in every
instruction. -/
theorem notWritesTheFifteenBitComplement : Obligations.NotWritesTheFifteenBitComplement :=
  ⟨fun _ _ => rfl, fun d a s => ⟨_, toNat_aluNot (s.resolve a), exec_not_reg d a s⟩,
    fun _ _ s => exec_of_literal_destination rfl s⟩

end Sys2Proof.Machine
end

section
/-! RMEM and WMEM (spec/45_memory_access.md): what each does, which cells a WMEM changes, that no other instruction
changes a cell, and from these the rules and the origin of a cell that is no Word. -/

namespace Sys2Proof.Machine

variable {s t : State}

/-! ## One lemma per case of R160 and R161 -/

theorem exec_rmem_of_some (d : RegIdx) {b : Operand} {v : Word}
    (h : cellToWord (s.mem.read (s.resolve b).toNat) = some v) :
    exec (.rmem (.reg d) b) s = .next ((s.writeReg d v).complete (s.cursor 2)) := by
  rw [exec, execRmem, withTarget_reg, h]

theorem exec_rmem_of_none (d : RegIdx) {b : Operand} (h : cellToWord (s.mem.read (s.resolve b).toNat) = none) :
    exec (.rmem (.reg d) b) s = .next (s.raise .invalidWord (s.mem.read (s.resolve b).toNat)) := by
  rw [exec, execRmem, withTarget_reg, h]

theorem exec_wmem (a b : Operand) (s : State) :
    exec (.wmem a b) s = .next ((s.storeWord (s.resolve a) (s.resolve b)).complete (s.cursor 2)) := by
  rw [exec, execWmem]

/-! ## The cells after a stored Word -/

theorem read_storeWord_same (h : s.mem.wf = true) (a v : Word) :
    (s.storeWord a v).mem.read a.toNat = zext16 v := by
  rw [State.storeWord_mem, Memory.read_write h, if_pos rfl]

theorem read_storeWord_of_ne (h : s.mem.wf = true) (a v : Word) {p : Nat} (hp : p ≠ a.toNat) :
    (s.storeWord a v).mem.read p = s.mem.read p := by
  rw [State.storeWord_mem, Memory.read_write h, if_neg hp.symm]

/-- R161: what WMEM stores is a Word, so a cell of 32768 or more is an older one. -/
theorem read_storeWord_of_ge (h : s.mem.wf = true) (a v : Word) {p : Nat}
    (hp : 32768 ≤ ((s.storeWord a v).mem.read p).toNat) : (s.storeWord a v).mem.read p = s.mem.read p := by
  refine read_storeWord_of_ne h a v fun hpa => ?_
  rw [hpa, read_storeWord_same h, toNat_zext16] at hp
  exact absurd v.isLt (Nat.not_lt.mpr hp)

/-! ## Where memory stays -/

/-- An instruction with a write target keeps memory when its effect on a register does: R91's fault stores nothing. -/
theorem mem_of_withTarget {dst : Operand} {k : RegIdx → Result} (h : withTarget dst s k = .next t)
    (hk : ∀ d, k d = .next t → t.mem = s.mem) : t.mem = s.mem := by
  obtain ⟨d, -, hd⟩ | ⟨w, -, hw⟩ := withTarget_cases s dst k
  · exact hk d (hd.symm.trans h)
  · cases hw.symm.trans h
    rfl

/-- R51: no instruction but WMEM stores into memory. -/
theorem mem_of_exec {i : Instr} (h : exec i s = .next t) (hi : ∀ a b, i ≠ .wmem a b) : t.mem = s.mem := by
  cases i
  case wmem a b => exact absurd rfl (hi a b)
  case halt | jmp | jt | jf | out | noop => cases h; rfl
  case set | eq | gt | add | mult | and | or | not | inp =>
    exact mem_of_withTarget h fun d hd => by cases hd; rfl
  case mod | pop | rmem =>
    refine mem_of_withTarget h fun d hd => ?_
    split at hd <;> cases hd <;> rfl
  case push =>
    rw [exec, execPush] at h
    split at h <;> cases h <;> rfl
  case call =>
    rw [exec, execCall] at h
    split at h
    · cases h; rfl
    · split at h <;> cases h <;> rfl
  case ret =>
    rw [exec, execRet] at h
    split at h <;> cases h <;> rfl

/-- A step leaves memory as it was or stores one Word. -/
theorem step_mem_cases (h : step s = .next t) :
    t.mem = s.mem ∨ ∃ a v : Word, t.mem = (s.storeWord a v).mem := by
  obtain ⟨-, rfl⟩ | ⟨-, -, rfl⟩ | ⟨c, rest, r, -, -, -, rfl⟩ | ⟨-, -, rfl⟩ | ⟨-, d, e, info, -, -, -, rfl⟩ |
    ⟨-, i, rest, -, -, he⟩ := step_next_cases h
  · exact .inl rfl
  · exact .inl rfl
  · exact .inl rfl
  · exact .inl rfl
  · exact .inl rfl
  · by_cases hi : ∃ a b, i = .wmem a b
    · obtain ⟨a, b, rfl⟩ := hi
      cases (exec_wmem a b s).symm.trans he
      exact .inr ⟨_, _, State.complete_mem ..⟩
    · push Not at hi
      exact .inl (mem_of_exec he hi)

/-! ## The obligations of the family -/

/-- Settles O17: the whole next state is WMEM's, and its memory read at the address and elsewhere. -/
theorem wmemWritesExactlyTheAddressedCell : Obligations.WmemWritesExactlyTheAddressedCell := by
  refine ⟨fun _ _ => rfl, fun a b s hwf => ⟨_, exec_wmem a b s, ?_, fun p hp => ?_⟩⟩
  · rw [read_storeWord_same hwf, toNat_zext16]
  · exact read_storeWord_of_ne hwf _ _ hp

/-- Settles O55: a step that stores, stores one Word; every other step keeps memory. -/
theorem noStepCreatesACellThatIsNoWord : Obligations.NoStepCreatesACellThatIsNoWord := by
  intro s t hwf hstep p hp
  obtain hmem | ⟨a, v, hmem⟩ := step_mem_cases hstep
  · rw [hmem]
  · rw [hmem] at hp ⊢
    exact read_storeWord_of_ge hwf a v hp

/-- Settles O16: the two classes of the addressed cell for a register destination; a literal one raises before memory is
read. -/
theorem rmemReadsAWordCellOrRaisesInvalidWord : Obligations.RmemReadsAWordCellOrRaisesInvalidWord := by
  refine ⟨fun _ _ => rfl, fun d b s hlt => ?_, fun d b s hge => exec_rmem_of_none d (cellToWord_of_ge hge),
    fun _ _ s => exec_of_literal_destination rfl s⟩
  obtain ⟨v, hsome, hval⟩ := cellToWord_of_lt hlt
  exact ⟨v, hval, exec_rmem_of_some d hsome⟩

end Sys2Proof.Machine
end

section
/-! CALL and RET (spec/46_call_return.md): the number of the return address, what each instruction does, once per case of
its rule, and from these the two rules and that a RET after a CALL comes back behind it. -/

namespace Sys2Proof.Machine

variable {s : State}

/-! ## One lemma per case of R170 and R171 -/

/-- R170's first test, in the numbers of the rule: the address behind the CALL's operand is past memory. -/
theorem cursor_past_memory_iff : s.cursor 1 > 32767 ↔ 32767 < s.pc + 2 := by
  rw [State.cursor_eq, gt_iff_lt, Nat.add_assoc]

/-- R170: a return address inside memory is a Word, so pushing it loses nothing. -/
theorem toNat_returnAddress (h : s.pc + 2 ≤ 32767) : (BitVec.ofNat 15 (s.cursor 1)).toNat = s.pc + 2 := by
  rw [State.cursor_eq, BitVec.toNat_ofNat]
  omega

/-- R170 with a return address inside memory and room on the stack. -/
theorem exec_call_of_room (a : Operand) (hpc : s.pc + 2 ≤ 32767)
    (h : ∀ n, s.cfg.stackCapacity = some n → s.stack.length < n) :
    exec (.call a) s = .next ((s.pushWord (BitVec.ofNat 15 (s.cursor 1))).complete (s.resolve a).toNat) := by
  rw [exec, execCall, if_neg (cursor_past_memory_iff.not.mpr (Nat.not_lt.mpr hpc)),
    if_neg (Bool.eq_false_iff.mp (stackFull_eq_false.mpr h))]

/-- R170 and R207: the return address is looked at before the stack. -/
theorem exec_call_of_past_memory (a : Operand) (hpc : 32767 < s.pc + 2) :
    exec (.call a) s = .next (s.raise .addressingFault 32768) := by
  rw [exec, execCall, if_pos (cursor_past_memory_iff.mpr hpc)]

/-- R170 and R28: the full stack of a finite build. -/
theorem exec_call_of_full (a : Operand) (hpc : s.pc + 2 ≤ 32767) (h : s.cfg.stackCapacity = some s.stack.length) :
    exec (.call a) s = .next (s.raise .stackOverflow 0) := by
  rw [exec, execCall, if_neg (cursor_past_memory_iff.not.mpr (Nat.not_lt.mpr hpc)), if_pos (stackFull_of_eq h)]

theorem exec_ret_of_cons {r : Word} {rest : List Word} (h : s.stack = r :: rest) :
    exec .ret s = .next ((s.withStack rest).complete r.toNat) := by
  rw [exec, execRet, h]

theorem exec_ret_of_nil (h : s.stack = []) :
    exec .ret s = .next ((s.setPc (s.cursor 0)).stop .retEmptyStack) := by
  rw [exec, execRet, h]

/-- R100: a normal stop is reported as `Done(op, Halted)`. -/
theorem report_stop (m : Mnemonic) (s : State) (r : StopReason) :
    report m (.next (s.stop r)) = .next (s.stop r, .done m .halted) := rfl

/-! ## The obligations of the family -/

/-- Settles O58: the CALL leaves its return address on top of the old stack, so the RET goes to that address and restores
the stack. -/
theorem callThenRetReturnsAfterTheCall : Obligations.CallThenRetReturnsAfterTheCall := by
  intro a s hpc hroom
  refine ⟨_, exec_call_of_room a hpc hroom, State.complete_pc .., ?_⟩
  have htop : ((s.pushWord (BitVec.ofNat 15 (s.cursor 1))).complete (s.resolve a).toNat).stack =
      BitVec.ofNat 15 (s.cursor 1) :: s.stack := by simp
  rw [exec_ret_of_cons htop, toNat_returnAddress hpc]
  rfl

/-- Settles O18: the three cases of R170, the return address before the stack's room. -/
theorem callPushesTheReturnAddressAndJumps : Obligations.CallPushesTheReturnAddressAndJumps :=
  ⟨fun _ => rfl, fun a _ => ⟨fun hpc hroom => ⟨_, toNat_returnAddress hpc, exec_call_of_room a hpc hroom⟩,
    exec_call_of_past_memory a, exec_call_of_full a⟩⟩

/-- Settles O19: the two cases of the stack; on the empty one RET is a normal stop, so the call that fetched it reports
`Done`. -/
theorem retReturnsToTheTopEntryOrHalts : Obligations.RetReturnsToTheTopEntryOrHalts := by
  refine ⟨rfl, fun s => ⟨fun _ _ => exec_ret_of_cons, fun hnil => ⟨_, rfl, exec_ret_of_nil hnil, ?_⟩⟩⟩
  intro rest hact _ hf
  rw [call_step_of_fetch_instr hact hf, exec_ret_of_nil hnil]
  exact report_stop .ret _ .retEmptyStack

end Sys2Proof.Machine
end

section
/-! OUT, IN and the supply (spec/47_io.md): the fetch of an instruction whose encoding stands at `pc`, what each
instruction and the supply do, once per case of its rule, and from these the three rules and that an OUT after a
supplied IN echoes the code. -/

namespace Sys2Proof.Machine

variable {s : State}

/-! ## The fetch of an encoded instruction -/

/-- R71, R94: an encoding is the opcode cell and the operand cells of its row. -/
theorem length_operands (i : Instr) : i.operands.length = arity i.mnemonic := by cases i <;> rfl

theorem length_encode (i : Instr) : (encode i).length = arity i.mnemonic + 1 := by
  rw [encode, List.length_cons, List.length_map, length_operands]

/-- R93 to R95: where the cells of an instruction stand at `pc`, inside memory, the fetch gives that instruction. -/
theorem fetch_of_encode {i : Instr} (hfit : s.pc + (encode i).length ≤ 32768)
    (hcells : ∀ k, k < (encode i).length → s.mem.read (s.pc + k) = (encode i).getD k 0) :
    fetch s = .instr i [] := by
  rw [length_encode] at hfit hcells
  have hop : opcode i.mnemonic = s.mem.read s.pc := (hcells 0 (Nat.succ_pos _)).symm
  have hops : s.operandCells i.mnemonic = i.operands.map encodeOperand := by
    have hlen := State.length_operandCells (s := s) (m := i.mnemonic) (by omega)
    refine List.ext_getElem (by rw [hlen, List.length_map, length_operands]) fun k hk hk' => ?_
    rw [hlen] at hk
    rw [← List.getD_eq_getElem _ 0, ← List.getD_eq_getElem _ 0, State.getD_operandCells (by omega) hk,
      hcells (k + 1) (Nat.succ_lt_succ hk), encode, List.getD_cons_succ]
  rw [fetch_of_opcode hop (by omega), hops, ← encode, ← List.append_nil (encode i), decode_encode_append]

/-- The fetch of a two-cell instruction: its opcode cell and the cell of its one operand. -/
theorem fetch_of_one_operand {i : Instr} {o : Operand} (hi : i.operands = [o]) (hfit : s.pc + 1 ≤ 32767)
    (hop : s.mem.read s.pc = opcode i.mnemonic) (ho : s.mem.read (s.pc + 1) = encodeOperand o) :
    fetch s = .instr i [] := by
  have henc : encode i = [opcode i.mnemonic, encodeOperand o] := by rw [encode, hi, List.map_singleton]
  refine fetch_of_encode (by simp only [henc, List.length_cons, List.length_nil]; omega) fun k hk => ?_
  rw [henc] at hk ⊢
  match k, hk with
  | 0, _ => exact hop
  | 1, _ => exact ho

/-! ## One lemma per case of R180 to R182 -/

theorem exec_out (a : Operand) (s : State) :
    exec (.out a) s = .next ((s.emit (s.resolve a)).complete (s.cursor 1)) := by
  rw [exec, execOut]

theorem exec_inp_reg (d : RegIdx) (s : State) : exec (.inp (.reg d)) s = .next (s.suspend d) := by
  rw [exec, execInp, withTarget_reg]

/-- R100: a suspended IN is reported as `Done(op, AwaitingInput)`. -/
theorem report_suspend (m : Mnemonic) (s : State) (d : RegIdx) :
    report m (.next (s.suspend d)) = .next (s.suspend d, .done m .awaitingInput) := rfl

/-- R182: the latched register holds the supplied code. -/
theorem readReg_resume (s : State) (d : RegIdx) (c : Word) : (s.resume d c).readReg d = c :=
  (State.readReg_congr (State.complete_x ..) d).trans ((State.readReg_writeReg ..).trans (if_pos rfl))

/-- R206: until the supply a `step()` call is refused. -/
theorem call_step_awaiting (h : s.st = .awaitingInput) : call .step s = .next (s, .refused) := by
  rw [call, stepCall, h]

/-- R182 while an IN is pending. -/
theorem call_supply_awaiting (c : Word) {d : RegIdx} (h : s.st = .awaitingInput) (hd : s.inDst = some d) :
    call (.supply c) s = .next (s.resume d c, .accepted) := by
  rw [call, supplyCall, h, hd]

/-- R206: a supply without a pending IN is refused. -/
theorem call_supply_active (c : Word) (h : s.active) : call (.supply c) s = .next (s, .refused) := by
  obtain h | h := h <;> rw [call, supplyCall, h]

/-- R35: an ended engine answers a supply by its termination. -/
theorem call_supply_ended (c : Word) (h : s.ended) : call (.supply c) s = .next (s, .terminal s.term) := by
  obtain h | h := h <;> rw [call, supplyCall, h]

/-- The step of a pending IN with an announced code: the supply of that code, taken off the list (log 3). -/
theorem step_of_pending {c : Word} {rest : List Word} {d : RegIdx} (h : s.st = .awaitingInput)
    (hd : s.inDst = some d) (hs : s.supplies = c :: rest) :
    step s = .next (({ s with supplies := rest } : State).resume d c) := by
  have hcall := call_supply_awaiting (s := { s with supplies := rest }) c h hd
  exact (step_awaiting_cons h hs).trans (congrArg stateOf hcall)

/-! ## The obligations of the family -/

/-- Settles O59: the IN suspends, the announced code is supplied into its register and `pc` stands at the OUT, which
emits that register. -/
theorem anInputFollowedByItsOutputEchoesTheCode : Obligations.AnInputFollowedByItsOutputEchoesTheCode := by
  intro s r c rest hact hfit hin hdst hout hsrc hsup
  have hfetchIn : fetch s = .instr (.inp (.reg r)) [] := fetch_of_one_operand rfl (by omega) hin hdst
  have hstepIn := (step_of_fetch_instr hact hfetchIn).trans (exec_inp_reg r s)
  have hstepSupply := step_of_pending (s := s.suspend r) rfl rfl hsup
  have hfetchOut : fetch (({ s.suspend r with supplies := rest } : State).resume r c) = .instr (.out (.reg r)) [] :=
    fetch_of_one_operand rfl hfit hout hsrc
  have hstepOut := (step_of_fetch_instr (.inr rfl) hfetchOut).trans (exec_out ..)
  rw [core_run_succ hstepIn, core_run_succ hstepSupply, core_run_succ hstepOut, core_run_zero, State.resolve_reg,
    readReg_resume]
  rfl

/-- Settles O20: OUT emits on every state. -/
theorem outEmitsItsOperandOnce : Obligations.OutEmitsItsOperandOnce :=
  ⟨fun _ => rfl, exec_out⟩

/-- Settles O21: a register destination is latched and the call reports the suspension; a literal one raises as in every
instruction. -/
theorem inLatchesItsDestinationAndWaits : Obligations.InLatchesItsDestinationAndWaits := by
  refine ⟨fun _ => rfl, fun d s => ⟨_, rfl, exec_inp_reg d s, call_step_awaiting rfl, fun rest hact _ hf => ?_⟩,
    fun _ s => exec_of_literal_destination rfl s⟩
  rw [call_step_of_fetch_instr hact hf, exec_inp_reg]
  exact report_suspend .inp s d

/-- Settles O23: the three kinds of execution state a supply can meet. -/
theorem supplyCompletesTheSuspendedIn : Obligations.SupplyCompletesTheSuspendedIn :=
  fun c _ => ⟨fun _ => call_supply_awaiting c, call_supply_active c, call_supply_ended c⟩

end Sys2Proof.Machine
end

section
/-! HALT and NOOP (spec/48_halt_noop.md): what each instruction does, that an ended engine answers every call by its
termination, and from these the two rules. -/

namespace Sys2Proof.Machine

variable {s : State}

/-! ## One lemma per rule of R190 and R191 -/

theorem exec_halt (s : State) : exec .halt s = .next ((s.setPc (s.cursor 0)).stop .haltInstruction) := by
  rw [exec, execHalt]

theorem exec_noop (s : State) : exec .noop s = .next (s.complete (s.cursor 0)) := by
  rw [exec, execNoop]

/-! ## Calls on an ended engine -/

/-- R35: an ended engine answers a `step()` call by its termination. -/
theorem call_step_ended (h : s.ended) : call .step s = .next (s, .terminal s.term) := by
  obtain h | h := h <;> rw [call, stepCall, h]

/-- R35 for both calls of R216. -/
theorem call_ended (h : s.ended) (c : HostCall) : call c s = .next (s, .terminal s.term) := by
  cases c with
  | step => exact call_step_ended h
  | supply c => exact call_supply_ended c h

/-! ## The obligations of the family -/

/-- Settles O1: HALT is a normal stop on every state, so the call that fetched it reports `Done` and the engine it leaves
has ended. -/
theorem haltStopsAtTheCursorForEver : Obligations.HaltStopsAtTheCursorForEver := by
  refine ⟨rfl, fun s => ⟨_, rfl, exec_halt s, call_ended (.inl rfl), fun rest hact _ hf => ?_⟩⟩
  rw [call_step_of_fetch_instr hact hf, exec_halt]
  exact report_stop .halt _ .haltInstruction

/-- Settles O22: NOOP completes at its cursor on every state. -/
theorem noopOnlyAdvancesThePc : Obligations.NoopOnlyAdvancesThePc :=
  ⟨rfl, exec_noop⟩

end Sys2Proof.Machine
end

section
/-! Calls against the I/O protocol (spec/60_exceptions.md): R206's refusals and its answers of an ended engine are the
rules of each call, put together. -/

namespace Sys2Proof.Machine

/-- Settles O35: the five execution states are the waiting one, where a `step()` is refused, the two active ones, where a
supply is refused, and the two ended ones, where both calls answer by the termination. -/
theorem callsAgainstTheProtocolAreRefusedWithoutEffect :
    Obligations.CallsAgainstTheProtocolAreRefusedWithoutEffect :=
  fun _ => ⟨call_step_awaiting, fun hactive c => call_supply_active c hactive, call_ended⟩

end Sys2Proof.Machine
end

section
/-! Decoding both ways (spec/30_encoding.md): an operand cell by its value, and that the decoder's instruction and rest
are told by exactly one cell sequence. -/

namespace Sys2Proof

/-! ## The cells behind a decoded instruction -/

/-- The decoder gives an instruction only when every operand cell is there (R95). -/
theorem arity_le_of_decodeShape {m : Mnemonic} {cells rest : List Cell} {i : Instr}
    (h : decodeShape (shape m) cells = .instr i rest) : arity m ≤ cells.length := by
  by_contra hlt
  rw [decodeShape_of_length_lt (Nat.lt_of_not_le hlt)] at h
  cases h

/-- The decoder gives an instruction only when every operand cell is valid (R96): a first invalid one would be
reported. -/
theorem valid_of_decodeShape {m : Mnemonic} {cells rest : List Cell} {i : Instr}
    (h : decodeShape (shape m) cells = .instr i rest) (k : Nat) (hk : k < arity m) :
    (cells.getD k 0).toNat < 32776 := by
  induction k using Nat.strong_induction_on with
  | _ k ih =>
    by_contra hbad
    rw [decodeShape_of_invalid hk (arity_le_of_decodeShape h) (fun j hj => ih j hj (hj.trans hk))
      (Nat.le_of_not_lt hbad)] at h
    cases h

/-- R76, R77: the cells that decode to an instruction are its encoding and the rest. -/
theorem eq_encode_append_of_decode {cells rest : List Cell} {i : Instr} (h : decode cells = .instr i rest) :
    cells = encode i ++ rest := by
  cases cells with
  | nil => cases h
  | cons op cells =>
    cases hop : mnemonicOf op with
    | none => simp [decode, hop] at h
    | some m =>
      obtain rfl := opcode_of_mnemonicOf hop
      have hshape : decodeShape (shape m) cells = .instr i rest := by rwa [decode_opcode_cons] at h
      obtain ⟨j, rfl, hj⟩ := exists_encode_append (arity_le_of_decodeShape hshape) (valid_of_decodeShape hshape)
      have hcells : opcode j.mnemonic :: cells = encode j ++ cells.drop (arity j.mnemonic) := by
        rw [hj, List.cons_append, List.take_append_drop]
      rw [hcells, decode_encode_append] at h
      cases h
      exact hcells

/-! ## Operand cells by their value -/

theorem toNat_low15 {w : Cell} (h : w.toNat < 32768) : (low15 w).toNat = w.toNat := by
  rw [← toNat_zext16, zext16_low15 h]

theorem decodeOperand_of_lt {w : Cell} (h : w.toNat < 32768) : decodeOperand w = some (.lit (low15 w)) := if_pos h

theorem decodeOperand_of_toNat_eq {w : Cell} {r : RegIdx} (h : w.toNat = 32768 + r.val) :
    decodeOperand w = some (.reg r) := by
  obtain rfl : encodeOperand (.reg r) = w := BitVec.eq_of_toNat_eq ((toNat_encodeReg r).trans h.symm)
  exact decodeOperand_encodeOperand _

/-! ## The obligations of the family -/

/-- Settles O25: the decoder reads back what the encoder wrote. -/
theorem decodingAnEncodedInstructionGivesItBack : Obligations.DecodingAnEncodedInstructionGivesItBack :=
  decode_encode_append

/-- Settles O26: an instruction comes only from cells that are all there and all valid, and those begin with the
encoding of an instruction, which decoding gives back. -/
theorem everyDecodedInstructionHasItsOneEncoding : Obligations.EveryDecodedInstructionHasItsOneEncoding :=
  fun _ _ _ => eq_encode_append_of_decode

/-- Settles O24: the three classes of R73. -/
theorem operandCellsResolveByTheirValue : Obligations.OperandCellsResolveByTheirValue :=
  fun _ _ => ⟨fun hlit => ⟨_, decodeOperand_of_lt hlit, toNat_low15 hlit⟩,
    fun _ hreg => ⟨_, decodeOperand_of_toNat_eq hreg, rfl⟩, decodeOperand_eq_none.mpr⟩

/-- Settles O28: ten closed words. -/
theorem sampleWordsDecodeAsTheSpecEncodesThem : Obligations.SampleWordsDecodeAsTheSpecEncodesThem := by
  unfold Obligations.SampleWordsDecodeAsTheSpecEncodesThem
  decide

end Sys2Proof
end

section
/-! Everything an instruction can do, said once: each next state `exec` answers is one of the cases of `Effect`. -/

namespace Sys2Proof.Machine

variable {s t : State} {i : Instr}

/-- The rows of R76 that complete by writing a result into their destination register: those with a write target but
POP, which also takes a stack entry, and IN, which waits for its supply. -/
def writesResult (m : Mnemonic) : Bool := m.hasDestination && m != .pop && m != .inp

/-- The rows of R76 that only move the program counter to a target. -/
def onlyJumps (m : Mnemonic) : Bool := [Mnemonic.jmp, .jt, .jf].contains m

/-- What instruction `i` makes of state `s`: the cases of the meanings, each with as much of what decides it as the
frames and the invariant need. A written value and the cause of a fault are left open; the rules of each instruction say
them. -/
inductive Effect (s : State) : Instr → State → Prop where
  | fault (i : Instr) (e : ErrorKind) (info : Cell) : Effect s i (s.raise e info)
  | wait (d : RegIdx) : Effect s (.inp (.reg d)) (s.suspend d)
  | halt : Effect s .halt ((s.setPc (s.cursor 0)).stop .haltInstruction)
  | retHalt (h : s.stack = []) : Effect s .ret ((s.setPc (s.cursor 0)).stop .retEmptyStack)
  | result {i : Instr} {d : RegIdx} (v : Word) (hd : i.destination = some (.reg d))
      (hi : writesResult i.mnemonic = true) :
      Effect s i ((s.writeReg d v).complete (s.cursor (arity i.mnemonic)))
  | pop {v : Word} {rest : List Word} (d : RegIdx) (h : s.stack = v :: rest) :
      Effect s (.pop (.reg d)) (((s.withStack rest).writeReg d v).complete (s.cursor 1))
  | push (a : Operand) (v : Word) (h : s.stackFull = false) :
      Effect s (.push a) ((s.pushWord v).complete (s.cursor 1))
  | call (a : Operand) (v target : Word) (h : s.stackFull = false) :
      Effect s (.call a) ((s.pushWord v).complete target.toNat)
  | ret {r : Word} {rest : List Word} (h : s.stack = r :: rest) :
      Effect s .ret ((s.withStack rest).complete r.toNat)
  | jump {i : Instr} {target : Nat} (hi : onlyJumps i.mnemonic = true)
      (h : target = s.cursor (arity i.mnemonic) ∨ target ≤ 32767) : Effect s i (s.complete target)
  | out (a : Operand) (v : Word) : Effect s (.out a) ((s.emit v).complete (s.cursor 1))
  | wmem (a b : Operand) (p v : Word) : Effect s (.wmem a b) ((s.storeWord p v).complete (s.cursor 2))
  | noop : Effect s .noop (s.complete (s.cursor 0))

theorem toNat_word_le (v : Word) : v.toNat ≤ 32767 := Nat.le_of_lt_succ v.isLt

/-- An instruction with a write target: R91's fault, or what it does to a register destination. -/
theorem exists_effect_of_withTarget {dst : Operand} {k : RegIdx → Result}
    (h : ∀ d, dst = .reg d → ∃ t, k d = .next t ∧ Effect s i t) :
    ∃ t, withTarget dst s k = .next t ∧ Effect s i t := by
  obtain ⟨d, hd, hk⟩ | ⟨w, -, hw⟩ := withTarget_cases s dst k
  · rw [hk]; exact h d hd
  · exact ⟨_, hw, .fault ..⟩

/-- A row that writes a result, on a register destination. -/
theorem exists_effect_of_result {dst : Operand} {d : RegIdx} {n : Nat} (v : Word) (hdst : i.destination = some dst)
    (hi : writesResult i.mnemonic = true) (hn : arity i.mnemonic = n) (hd : dst = .reg d) :
    ∃ t, Host.Outcome.next (φ := Fault) (ρ := Refusal) ((s.writeReg d v).complete (s.cursor n)) = .next t ∧
      Effect s i t := by
  subst hn
  exact ⟨_, rfl, .result v (hd ▸ hdst) hi⟩

/-- Every instruction answers a next state in every state, and that state is one of the cases of `Effect`. -/
theorem exists_effect (i : Instr) (s : State) : ∃ t, exec i s = .next t ∧ Effect s i t := by
  cases i
  case halt => exact ⟨_, exec_halt s, .halt⟩
  case noop => exact ⟨_, exec_noop s, .noop⟩
  case out a => exact ⟨_, exec_out a s, .out ..⟩
  case wmem a b => exact ⟨_, exec_wmem a b s, .wmem ..⟩
  case set | eq | gt | add | mult | and | or | not =>
    exact exists_effect_of_withTarget fun d => exists_effect_of_result _ rfl rfl rfl
  case mod =>
    refine exists_effect_of_withTarget fun d hd => ?_
    split
    · exact ⟨_, rfl, .fault ..⟩
    · exact exists_effect_of_result _ rfl rfl rfl hd
  case rmem =>
    refine exists_effect_of_withTarget fun d hd => ?_
    split
    · exact ⟨_, rfl, .fault ..⟩
    · exact exists_effect_of_result _ rfl rfl rfl hd
  case inp => exact exists_effect_of_withTarget fun d hd => ⟨_, rfl, hd ▸ .wait d⟩
  case pop dst =>
    refine exists_effect_of_withTarget fun d hd => ?_
    split
    · exact ⟨_, rfl, .fault ..⟩
    · exact ⟨_, rfl, hd ▸ .pop d ‹_›⟩
  case push a =>
    rw [exec, execPush]
    split
    · exact ⟨_, rfl, .fault ..⟩
    · exact ⟨_, rfl, .push _ _ (Bool.eq_false_iff.mpr ‹_›)⟩
  case call a =>
    rw [exec, execCall]
    split
    · exact ⟨_, rfl, .fault ..⟩
    · split
      · exact ⟨_, rfl, .fault ..⟩
      · exact ⟨_, rfl, .call _ _ _ (Bool.eq_false_iff.mpr ‹_›)⟩
  case ret =>
    rw [exec, execRet]
    split
    · exact ⟨_, rfl, .retHalt ‹_›⟩
    · exact ⟨_, rfl, .ret ‹_›⟩
  case jmp a => exact ⟨_, exec_jmp a s, .jump rfl (.inr (toNat_word_le _))⟩
  case jt a b =>
    by_cases ha : (s.resolve a).toNat = 0
    · exact ⟨_, exec_jt_of_eq b ha, .jump rfl (.inl rfl)⟩
    · exact ⟨_, exec_jt_of_ne b ha, .jump rfl (.inr (toNat_word_le _))⟩
  case jf a b =>
    by_cases ha : (s.resolve a).toNat = 0
    · exact ⟨_, exec_jf_of_eq b ha, .jump rfl (.inr (toNat_word_le _))⟩
    · exact ⟨_, exec_jf_of_ne b ha, .jump rfl (.inl rfl)⟩

theorem effect_of_exec (h : exec i s = .next t) : Effect s i t := by
  obtain ⟨t', ht', heff⟩ := exists_effect i s
  cases ht'.symm.trans h
  exact heff

/-- Settles O40: each of the 22 meanings ends in a next state on every path. -/
theorem everyInstructionHasANextState : Obligations.EveryInstructionHasANextState :=
  fun i s => (exists_effect i s).imp fun _ => And.left

end Sys2Proof.Machine
end

section
/-! What an instruction leaves unchanged, over all 22 of them: each frame is a case analysis on `Effect`. -/

namespace Sys2Proof.Machine

variable {s t : State} {i : Instr}

/-! ## Registers and output -/

/-- R23: the registers stay, or the destination of an instruction other than IN takes a value. -/
theorem Effect.x_cases (h : Effect s i t) :
    t.x = s.x ∨ i.mnemonic ≠ .inp ∧ ∃ d v, i.destination = some (.reg d) ∧ t.x = s.x.set d.val v d.isLt := by
  cases h with
  | result v hd hi => exact .inr ⟨fun hin => (by rw [hin] at hi; cases hi), _, v, hd, rfl⟩
  | pop d => exact .inr ⟨nofun, d, _, rfl, rfl⟩
  | fault | wait | halt | retHalt | push | call | ret | jump | out | wmem | noop => exact .inl rfl

/-- R214: the output trace grows by an OUT alone. -/
theorem Effect.out_eq (h : Effect s i t) (hi : ∀ a, i ≠ .out a) : t.out = s.out := by
  cases h with
  | out a => exact absurd rfl (hi a)
  | fault | wait | halt | retHalt | result | pop | push | call | ret | jump | wmem | noop => rfl

/-! ## The stack -/

/-- R27: only a completed instruction touches the stack. -/
theorem Effect.stack_of_not_running (h : Effect s i t) (ht : t.st ≠ .running) : t.stack = s.stack := by
  cases h with
  | fault | wait | halt | retHalt => rfl
  | result | pop | push | call | ret | jump | out | wmem | noop => exact absurd rfl ht

theorem Effect.stack_of_push (h : Effect s i t) (ht : t.st = .running)
    (hi : i.mnemonic = .push ∨ i.mnemonic = .call) : ∃ v, t.stack = v :: s.stack := by
  cases h with
  | push a v => exact ⟨v, rfl⟩
  | call a v => exact ⟨v, rfl⟩
  | fault | wait | halt | retHalt => cases ht
  | result v hd hm | jump hm => obtain hi | hi := hi <;> rw [hi] at hm <;> cases hm
  | pop | ret | out | wmem | noop => obtain hi | hi := hi <;> cases hi

theorem Effect.stack_of_pop (h : Effect s i t) (ht : t.st = .running)
    (hi : i.mnemonic = .pop ∨ i.mnemonic = .ret) : ∃ v, s.stack = v :: t.stack := by
  cases h with
  | pop d hs => exact ⟨_, hs⟩
  | ret hs => exact ⟨_, hs⟩
  | fault | wait | halt | retHalt => cases ht
  | result v hd hm | jump hm => obtain hi | hi := hi <;> rw [hi] at hm <;> cases hm
  | push | call | out | wmem | noop => obtain hi | hi := hi <;> cases hi

theorem Effect.stack_eq (h : Effect s i t) (hi : i.mnemonic ∉ [.push, .call, .pop, .ret]) : t.stack = s.stack := by
  cases h with
  | push | call | pop | ret => simp [Instr.mnemonic] at hi
  | fault | wait | halt | retHalt | result | jump | out | wmem | noop => rfl

/-! ## The execution state -/

/-- R202: an instruction that faults does nothing else. -/
theorem Effect.eq_raise (h : Effect s i t) (ht : t.st = .faulted) : ∃ e info, t = s.raise e info := by
  cases h with
  | fault i e info => exact ⟨e, info, rfl⟩
  | wait | halt | retHalt | result | pop | push | call | ret | jump | out | wmem | noop => cases ht

/-- R181: only an IN with a register destination waits, and it only latches that destination. -/
theorem Effect.eq_suspend (h : Effect s i t) (ht : t.st = .awaitingInput) :
    ∃ d, i = .inp (.reg d) ∧ t = s.suspend d := by
  cases h with
  | wait d => exact ⟨d, rfl, rfl⟩
  | fault | halt | retHalt | result | pop | push | call | ret | jump | out | wmem | noop => cases ht

/-- R203: only HALT, and RET on an empty stack, stop. -/
theorem Effect.eq_halt_or_ret (h : Effect s i t) (ht : t.st = .halted) : i = .halt ∨ i = .ret ∧ s.stack = [] := by
  cases h with
  | halt => exact .inl rfl
  | retHalt hs => exact .inr ⟨rfl, hs⟩
  | fault | wait | result | pop | push | call | ret | jump | out | wmem | noop => cases ht

/-- R32, R33, R34, R101: what an instruction writes of the status elements goes with the `st` it leaves. -/
theorem Effect.status (h : Effect s i t) :
    t.cfg = s.cfg ∧ t.supplies = s.supplies ∧ (i.mnemonic ≠ .inp → t.inDst = s.inDst) ∧ t.st ≠ .ready ∧
    (t.st = .running ∨ t.st = .awaitingInput → t.term = s.term ∧ t.finfo = s.finfo) ∧
    (t.st = .halted → t.finfo = s.finfo ∧ ∃ r, t.term = .stopped r) ∧ (t.st = .faulted → ∃ e, t.term = .raised e) := by
  cases h with
  | fault i e info => exact ⟨rfl, rfl, fun _ => rfl, nofun, nofun, nofun, fun _ => ⟨e, rfl⟩⟩
  | wait d => exact ⟨rfl, rfl, fun hi => absurd rfl hi, nofun, fun _ => ⟨rfl, rfl⟩, nofun, nofun⟩
  | halt | retHalt => exact ⟨rfl, rfl, fun _ => rfl, nofun, nofun, fun _ => ⟨rfl, _, rfl⟩, nofun⟩
  | result | pop | push | call | ret | jump | out | wmem | noop =>
    exact ⟨rfl, rfl, fun _ => rfl, nofun, fun _ => ⟨rfl, rfl⟩, nofun, nofun⟩

/-! ## The program counter -/

/-- The jumps are control transfers. -/
theorem mem_transfers_of_onlyJumps {m : Mnemonic} (h : onlyJumps m = true) : m ∈ [.jmp, .jt, .jf, .call, .ret] := by
  revert h
  cases m <;> decide

/-- R24, R25: a completed instruction goes to its cursor or, for the five control transfers, to a Word. -/
theorem Effect.pc_of_running (h : Effect s i t) (ht : t.st = .running) :
    t.pc = s.pc + 1 + arity i.mnemonic ∨ i.mnemonic ∈ [.jmp, .jt, .jf, .call, .ret] ∧ t.pc ≤ 32767 := by
  cases h with
  | fault | wait | halt | retHalt => cases ht
  | result | pop | push | out | wmem | noop => exact .inl rfl
  | call a v target => exact .inr ⟨by simp [Instr.mnemonic], toNat_word_le target⟩
  | ret => exact .inr ⟨by simp [Instr.mnemonic], toNat_word_le _⟩
  | jump hi htarget => exact htarget.imp_right fun hle => ⟨mem_transfers_of_onlyJumps hi, hle⟩

/-- R202, R181: a fault and a suspended IN keep the program counter. -/
theorem Effect.pc_eq (h : Effect s i t) (ht : t.st = .faulted ∨ t.st = .awaitingInput) : t.pc = s.pc := by
  obtain ht | ht := ht
  · obtain ⟨e, info, rfl⟩ := h.eq_raise ht; rfl
  · obtain ⟨d, -, rfl⟩ := h.eq_suspend ht; rfl

/-! ## The obligations of the family -/

/-- Settles O48: a written register is the destination, and IN writes none. -/
theorem onlyTheDestinationRegisterIsWritten : Obligations.OnlyTheDestinationRegisterIsWritten := by
  intro i s t h
  obtain hx | ⟨hin, d, v, hd, hx⟩ := (effect_of_exec h).x_cases
  · exact ⟨fun r _ => by rw [hx], fun _ _ => hx⟩
  · refine ⟨fun r hr => ?_, fun dst hdst => absurd (congrArg Instr.mnemonic hdst) hin⟩
    have hne : d.val ≠ r.val := fun heq => hr (Fin.ext heq ▸ hd)
    rw [hx]
    exact Vector.getElem_set_ne _ _ hne

/-- Settles O49: no instruction but WMEM stores. -/
theorem onlyWmemChangesMemory : Obligations.OnlyWmemChangesMemory :=
  fun _ _ _ h hi _ => by rw [mem_of_exec h hi]

/-- Settles O50: the three classes of rows when the instruction completes, and no change when it does not. -/
theorem onlyStackInstructionsChangeTheStack : Obligations.OnlyStackInstructionsChangeTheStack :=
  fun _ _ _ h =>
    have heff := effect_of_exec h
    ⟨fun ht => ⟨heff.stack_of_push ht, heff.stack_of_pop ht, heff.stack_eq⟩, heff.stack_of_not_running⟩

/-- Settles O51: OUT emits on every state, and no other instruction does. -/
theorem onlyOutEmits : Obligations.OnlyOutEmits := by
  refine fun i s t h => ⟨?_, (effect_of_exec h).out_eq⟩
  rintro a rfl
  cases (exec_out a s).symm.trans h
  rfl

/-- Settles O52: the status elements of each effect. -/
theorem statusElementsChangeOnlyAtAnEndOrAnIn : Obligations.StatusElementsChangeOnlyAtAnEndOrAnIn :=
  fun _ _ _ h => (effect_of_exec h).status

/-- Settles O53: where each effect leaves the program counter. -/
theorem thePcGoesToTheCursorOrToAWordTarget : Obligations.ThePcGoesToTheCursorOrToAWordTarget :=
  fun _ _ _ h => ⟨(effect_of_exec h).pc_of_running, (effect_of_exec h).pc_eq⟩

/-- Settles O47: a step enters Faulted by a fetch that faults or by an instruction that does, and both only raise. -/
theorem faultsChangeOnlyTheStatusElements : Obligations.FaultsChangeOnlyTheStatusElements := by
  intro s t hs h ht
  obtain ⟨-, rfl⟩ | ⟨-, -, rfl⟩ | ⟨c, rest, r, -, -, -, rfl⟩ | ⟨-, -, rfl⟩ | ⟨-, d, e, info, -, -, -, rfl⟩ |
    ⟨-, i, rest, -, -, he⟩ := step_next_cases h
  · exact absurd ht hs
  · exact absurd ht hs
  · cases ht
  · cases ht
  · exact ⟨e, info, rfl⟩
  · exact (effect_of_exec he).eq_raise ht

/-! ## Noninterference of the status elements -/

/-- A state with other status elements (R37). -/
def State.withStatus (s : State) (st : ExecState) (term : Term) (finfo : Cell) (d : Option RegIdx) : State :=
  { s with st := st, term := term, finfo := finfo, inDst := d }

/-- Two results are next states that differ in `term`, `finfo` and `in_dst` at most. -/
def SameEffect (r r' : Result) : Prop :=
  ∃ t term finfo d, r = .next t ∧ r' = .next (t.withStatus t.st term finfo d)

theorem SameEffect.ite {c : Prop} [Decidable c] {r₁ r₁' r₂ r₂' : Result} (h₁ : SameEffect r₁ r₁')
    (h₂ : SameEffect r₂ r₂') : SameEffect (if c then r₁ else r₂) (if c then r₁' else r₂') := by
  split
  · exact h₁
  · exact h₂

theorem SameEffect.withTarget {dst : Operand} {st : ExecState} {term : Term} {finfo : Cell} {d : Option RegIdx}
    {k k' : RegIdx → Result} (h : ∀ r, SameEffect (k r) (k' r)) :
    SameEffect (withTarget dst s k) (withTarget dst (s.withStatus st term finfo d) k') := by
  cases dst with
  | lit w => exact ⟨_, _, _, _, rfl, rfl⟩
  | reg r => exact h r

/-- R37: no meaning reads a status element. -/
theorem sameEffect_withStatus (i : Instr) (s : State) (st : ExecState) (term : Term) (finfo : Cell)
    (d : Option RegIdx) : SameEffect (exec i s) (exec i (s.withStatus st term finfo d)) := by
  cases i
  case halt | jmp | jt | jf | wmem | out | noop => exact ⟨_, _, _, _, rfl, rfl⟩
  case set | eq | gt | add | mult | and | or | not | inp => exact .withTarget fun _ => ⟨_, _, _, _, rfl, rfl⟩
  case mod => exact .withTarget fun _ => .ite ⟨_, _, _, _, rfl, rfl⟩ ⟨_, _, _, _, rfl, rfl⟩
  case push => exact .ite ⟨_, _, _, _, rfl, rfl⟩ ⟨_, _, _, _, rfl, rfl⟩
  case call => exact .ite ⟨_, _, _, _, rfl, rfl⟩ (.ite ⟨_, _, _, _, rfl, rfl⟩ ⟨_, _, _, _, rfl, rfl⟩)
  case rmem dst b =>
    refine .withTarget fun r => ?_
    cases hw : cellToWord (s.mem.read (s.resolve b).toNat) with
    | none => exact ⟨_, _, _, _, rfl, exec_rmem_of_none (s := s.withStatus st term finfo d) r hw⟩
    | some v => exact ⟨_, _, _, _, rfl, exec_rmem_of_some (s := s.withStatus st term finfo d) r hw⟩
  case pop dst =>
    refine .withTarget fun r => ?_
    cases hs : s.stack with
    | nil => exact ⟨_, _, _, _, rfl, exec_pop_of_nil (s := s.withStatus st term finfo d) r hs⟩
    | cons v rest => exact ⟨_, _, _, _, rfl, exec_pop_of_cons (s := s.withStatus st term finfo d) r hs⟩
  case ret =>
    cases hs : s.stack with
    | nil => exact ⟨_, _, _, _, exec_ret_of_nil hs, exec_ret_of_nil (s := s.withStatus st term finfo d) hs⟩
    | cons v rest =>
      exact ⟨_, _, _, _, exec_ret_of_cons hs, exec_ret_of_cons (s := s.withStatus st term finfo d) hs⟩

/-- Settles O54: the two runs of an instruction end alike but for the status elements it does not read. -/
theorem noInstructionReadsTheStatusElements : Obligations.NoInstructionReadsTheStatusElements := by
  intro i s st term finfo d
  obtain ⟨t, _, _, _, ht, ht'⟩ := sameEffect_withStatus i s st term finfo d
  exact ⟨t, _, ht, ht', rfl, rfl, rfl, rfl, rfl, rfl⟩

end Sys2Proof.Machine
end

section
/-! The fetch and the step it leads to (spec/40_step_and_operands.md, spec/10_state.md): which cells give an
instruction, which faults a fetch can meet, the calls behind a step, and where the execution state goes. -/

namespace Sys2Proof.Machine

variable {s t : State}

/-! ## What a fetch says of the cells at `pc` -/

/-- R93: an opcode cell above 21 ends the fetch. -/
theorem fetch_of_unsupported (hp : s.pc ≤ 32767) (hop : 21 < (s.mem.read s.pc).toNat) :
    fetch s = .reject (.unsupportedOpcode (s.mem.read s.pc)) := by
  rw [fetch_of_pc_lt (Nat.lt_succ_of_le hp), decode, mnemonicOf_eq_none_of_gt hop]

/-- R95: operand cells past the last address are missing. -/
theorem fetch_of_missing_operand {m : Mnemonic} (hop : opcode m = s.mem.read s.pc) (hp : s.pc ≤ 32767)
    (hpast : 32767 < s.pc + arity m) : fetch s = .reject .noOperandCell := by
  have hlen : (s.operandCells m).length < arity m := length_cellsFrom_past _ _ _ (by omega) (by omega)
  rw [fetch_of_opcode hop hp, decode_opcode_cons, decodeShape_of_length_lt hlen]

/-- An instruction without operands is fetched from its opcode cell alone. -/
theorem fetch_of_no_operands {i : Instr} (hi : i.operands = []) (hp : s.pc ≤ 32767)
    (hop : s.mem.read s.pc = opcode i.mnemonic) : fetch s = .instr i [] := by
  have henc : encode i = [opcode i.mnemonic] := by rw [encode, hi, List.map_nil]
  refine fetch_of_encode (by rw [henc, List.length_singleton]; omega) fun k hk => ?_
  rw [henc, List.length_singleton] at hk
  obtain rfl : k = 0 := Nat.lt_one_iff.mp hk
  rw [henc]
  exact hop

/-- A fetched instruction has its opcode cell at `pc`, and all its cells lie inside memory (R93 to R95). -/
theorem cells_of_fetch {i : Instr} {rest : List Cell} (hf : fetch s = .instr i rest) :
    opcode i.mnemonic = s.mem.read s.pc ∧ s.pc + arity i.mnemonic ≤ 32767 := by
  have hp : s.pc < 32768 := pc_lt_of_fetch_ne (by rw [hf]; nofun)
  have hop : opcode i.mnemonic = s.mem.read s.pc := by
    have hcells := eq_encode_append_of_decode ((fetch_of_pc_lt hp).symm.trans hf)
    exact (List.cons.inj hcells).1.symm
  refine ⟨hop, ?_⟩
  by_contra hpast
  rw [fetch_of_missing_operand hop (by omega) (by omega)] at hf
  cases hf

/-! ## The step of each kind of state -/

theorem not_ended_of_active (ha : s.active) : ¬ s.ended := by
  obtain hst | hst := ha <;> simp [hst]

/-- A step in Ready or Running is the exhausted end, a fault of the fetch, or the fetched instruction. -/
theorem step_active_cases (ha : s.active) (h : step s = .next t) :
    (s.pc = 32768 ∧ t = s.stop .pcExhausted) ∨
    (∃ d e info, s.pc < 32768 ∧ fetch s = .reject d ∧ t = s.raise e info) ∨
    (∃ i rest, fetch s = .instr i rest ∧ exec i s = .next t) := by
  have hnot : s.st ≠ .awaitingInput := by obtain hst | hst := ha <;> simp [hst]
  obtain ⟨he, -⟩ | ⟨hw, -⟩ | ⟨c, rest, r, hw, -⟩ | ⟨-, hp, ht⟩ | ⟨-, d, e, info, hlt, hf, -, ht⟩ |
    ⟨-, i, rest, -, hf, hx⟩ := step_next_cases h
  · exact absurd he (not_ended_of_active ha)
  · exact absurd hw hnot
  · exact absurd hw hnot
  · exact .inl ⟨hp, ht⟩
  · exact .inr (.inl ⟨d, e, info, hlt, hf, ht⟩)
  · exact .inr (.inr ⟨i, rest, hf, hx⟩)

/-- A step while AwaitingInput changes nothing or is a supply. -/
theorem step_awaiting_cases (hw : s.st = .awaitingInput) (h : step s = .next t) :
    t = s ∨ ∃ c rest r, s.supplies = c :: rest ∧ s.inDst = some r ∧
      t = ({ s with supplies := rest } : State).resume r c := by
  have hnot : ¬ s.active := by simp [hw]
  obtain ⟨-, ht⟩ | ⟨-, -, ht⟩ | ⟨c, rest, r, -, hs, hd, ht⟩ | ⟨ha, -⟩ | ⟨ha, -⟩ | ⟨ha, -⟩ := step_next_cases h
  · exact .inl ht
  · exact .inl ht
  · exact .inr ⟨c, rest, r, hs, hd, ht⟩
  · exact absurd ha hnot
  · exact absurd ha hnot
  · exact absurd ha hnot

/-- A property from which every step leads to a next state that has it again holds along every run. -/
theorem run_of_step {P : State → Prop} (hstep : ∀ s, P s → ∃ t, step s = .next t ∧ P t) {s : State} (hs : P s)
    (k : Nat) : ∃ t, Sys2Proof.core.run k s = .next t ∧ P t := by
  induction k generalizing s with
  | zero => exact ⟨s, rfl, hs⟩
  | succ k ih =>
    obtain ⟨u, hu, hPu⟩ := hstep s hs
    rw [core_run_succ hu]
    exact ih hPu

/-! ## The execution state after an instruction -/

theorem awaiting_iff_of_exec {i : Instr} (h : exec i s = .next t) :
    t.st = .awaitingInput ↔ ∃ d, i = .inp (.reg d) := by
  refine ⟨fun ht => ((effect_of_exec h).eq_suspend ht).imp fun _ => And.left, ?_⟩
  rintro ⟨d, rfl⟩
  cases (exec_inp_reg d s).symm.trans h
  rfl

theorem halted_iff_of_exec {i : Instr} (h : exec i s = .next t) :
    t.st = .halted ↔ i = .halt ∨ i = .ret ∧ s.stack = [] := by
  refine ⟨(effect_of_exec h).eq_halt_or_ret, ?_⟩
  rintro (rfl | ⟨rfl, hs⟩)
  · cases (exec_halt s).symm.trans h
    rfl
  · cases (exec_ret_of_nil hs).symm.trans h
    rfl

/-! ## The obligations of the family -/

/-- Settles O30: cells that stand at `pc` as an encoding are fetched as that instruction. -/
theorem stepRunsTheInstructionWhoseCellsStandAtThePc :
    Obligations.StepRunsTheInstructionWhoseCellsStandAtThePc :=
  fun _ _ hact hfit hcells => step_of_fetch_instr hact (fetch_of_encode hfit hcells)

/-- Settles O32: the two faults a fetch meets before it looks at an operand cell. -/
theorem fetchFaultsOnUnsupportedOpcodesAndMissingOperands :
    Obligations.FetchFaultsOnUnsupportedOpcodesAndMissingOperands :=
  fun _ hact hp => ⟨fun hop => step_of_fetch_reject hact (fetch_of_unsupported hp hop) rfl,
    fun _ hop hpast => step_of_fetch_reject hact (fetch_of_missing_operand hop hp hpast) rfl⟩

/-- Settles O29: the call reports what the instruction leaves, and the step keeps only the state. -/
theorem stepRunsTheDecodedInstruction : Obligations.StepRunsTheDecodedInstruction := by
  refine fun s i rest hact _ hf => ⟨step_of_fetch_instr hact hf, fun t ht => ?_⟩
  rw [call_step_of_fetch_instr hact hf, ht, report]

/-- Settles O36: the turn of the host in each kind of state. -/
theorem stepIsTheNextCallOfAProtocolKeepingHost : Obligations.StepIsTheNextCallOfAProtocolKeepingHost := by
  refine fun s => ⟨fun c rest => step_awaiting_cons, fun hw hs => ?_, fun hne => ?_⟩
  · rw [step_awaiting_nil hw hs, call_step_awaiting hw, stateOf_next]
  · have hturn : hostTurn s = (.step, s) := by
      unfold hostTurn
      split
      · exact absurd ‹_› hne
      · rfl
    rw [step, hturn]

/-- Settles O34: an ended machine answers every call by its termination, so each step of a run gives the state back. -/
theorem endedMachinesAbsorbEveryCall : Obligations.EndedMachinesAbsorbEveryCall := by
  refine fun s he => ⟨call_ended he, fun k => ?_⟩
  have hstep : ∀ u, u = s → ∃ t, step u = .next t ∧ t = s := fun u hu => ⟨s, hu ▸ step_ended (hu ▸ he), rfl⟩
  obtain ⟨t, hrun, rfl⟩ := run_of_step hstep rfl k
  exact hrun

/-- Settles O46: an ended state stays, a waiting one waits or is supplied, and from an active one the exhausted end, the
fault of a fetch and the fetched instruction each say where `st` goes. -/
theorem executionStateFollowsTheTransitionTable : Obligations.ExecutionStateFollowsTheTransitionTable := by
  refine fun s t h => ⟨fun he => ?_, fun hw => ?_, fun ha => ?_⟩
  · cases (step_ended he).symm.trans h
    rfl
  · refine (step_awaiting_cases hw h).imp_right ?_
    rintro ⟨c, rest, r, -, -, rfl⟩
    rfl
  · obtain ⟨hp, rfl⟩ | ⟨d, e, info, hlt, hf, rfl⟩ | ⟨i, rest, hf, hx⟩ := step_active_cases ha h
    · simp [hp, fetch_of_exhausted hp.ge]
    · simp [hf, hlt.ne]
    · have hp : s.pc ≠ 32768 := (pc_lt_of_fetch_ne (by rw [hf]; nofun)).ne
      obtain ⟨-, -, -, hready, -⟩ := (effect_of_exec hx).status
      refine ⟨hready, ?_, ?_⟩
      · simp [hf, awaiting_iff_of_exec hx]
      · simp [hf, hp, halted_iff_of_exec hx]

/-- Settles O56: the WMEM leaves its Word at the address the program counter then has, and the next fetch reads that
cell as an opcode cell. -/
theorem aStoredCellIsFetchedByTheVeryNextStep : Obligations.AStoredCellIsFetchedByTheVeryNextStep := by
  intro s a b rest hact hwf hf haddr
  have hstep := (step_of_fetch_instr hact hf).trans (exec_wmem a b s)
  refine ⟨_, hstep, rfl, ?_⟩
  generalize ht : (s.storeWord (s.resolve a) (s.resolve b)).complete (s.cursor 2) = t
  have hrun : t.active := .inr (by rw [← ht, State.complete_st])
  have hpc : t.pc = s.pc + 3 := by rw [← ht, State.complete_pc, State.cursor_eq]
  have hp : t.pc ≤ 32767 := by rw [hpc, ← haddr]; exact toNat_word_le _
  have hcell : t.mem.read t.pc = zext16 (s.resolve b) := by
    rw [hpc, ← haddr, ← ht, State.complete_mem, read_storeWord_same hwf]
  have hval : (t.mem.read t.pc).toNat = (s.resolve b).toNat := by rw [hcell, toNat_zext16]
  refine ⟨fun hop => ?_, fun hop => ?_, fun hop => ?_⟩
  · rw [step_of_fetch_reject hrun (fetch_of_unsupported hp (by rwa [hval])) rfl, hcell]
    rfl
  · have hnoop : fetch t = .instr .noop [] := fetch_of_no_operands rfl hp (BitVec.eq_of_toNat_eq (hval.trans hop))
    rw [step_of_fetch_instr hrun hnoop, exec_noop, ← ht]
    rfl
  · have hhalt : fetch t = .instr .halt [] := fetch_of_no_operands rfl hp (BitVec.eq_of_toNat_eq (hval.trans hop))
    rw [step_of_fetch_instr hrun hhalt, exec_halt, ← ht]
    rfl

end Sys2Proof.Machine
end

section
/-! Memory as a value, reset and load (spec/20_memory.md, spec/70_reset_and_hazards.md): canonical memories are told
apart by what they read, and the load places an image's cells. -/

namespace Sys2Proof.Machine

/-- A canonical memory with a first cell reads differently from one whose addresses all lie above that cell. -/
theorem Memory.read_ne_of_wfFrom_above {a : Nat} {v : Cell} {m m' : Memory} (hv : v ≠ 0)
    (hm' : Memory.wfFrom (a + 1) m' = true) : Memory.read ((a, v) :: m) a ≠ m'.read a := by
  rw [Memory.read_cons, if_pos rfl, Memory.read_below hm' (Nat.lt_succ_self a)]
  exact hv

/-- Canonical memories that read alike are equal: their first addresses agree, since the lower of the two would read 0
in the other memory, and so do the cells there. -/
theorem Memory.ext_of_wfFrom {m m' : Memory} {lo lo' : Nat} (h : Memory.wfFrom lo m = true)
    (h' : Memory.wfFrom lo' m' = true) (hread : ∀ p, m.read p = m'.read p) : m = m' := by
  induction m generalizing lo lo' m' with
  | nil =>
    cases m' with
    | nil => rfl
    | cons c' m' =>
      obtain ⟨-, -, hv', -⟩ := Memory.wfFrom_cons.mp h'
      exact absurd (hread c'.1).symm (Memory.read_ne_of_wfFrom_above hv' rfl)
  | cons c m ih =>
    obtain ⟨a, v⟩ := c
    obtain ⟨-, ha, hv, htail⟩ := Memory.wfFrom_cons.mp h
    cases m' with
    | nil => exact absurd (hread a) (Memory.read_ne_of_wfFrom_above hv rfl)
    | cons c' m' =>
      obtain ⟨a', v'⟩ := c'
      obtain ⟨-, ha', hv', htail'⟩ := Memory.wfFrom_cons.mp h'
      rcases Nat.lt_trichotomy a a' with hlt | rfl | hgt
      · have habove : Memory.wfFrom (a + 1) ((a', v') :: m') = true := Memory.wfFrom_cons.mpr ⟨hlt, ha', hv', htail'⟩
        exact absurd (hread a) (Memory.read_ne_of_wfFrom_above hv habove)
      · obtain rfl : v = v' := by simpa using hread a
        refine congrArg _ (ih htail htail' fun p => ?_)
        by_cases hp : a = p
        · subst hp
          rw [Memory.read_below htail (Nat.lt_succ_self a), Memory.read_below htail' (Nat.lt_succ_self a)]
        · simpa [hp] using hread p
      · have habove : Memory.wfFrom (a' + 1) ((a, v) :: m) = true := Memory.wfFrom_cons.mpr ⟨hgt, ha, hv, htail⟩
        exact absurd (hread a').symm (Memory.read_ne_of_wfFrom_above hv' habove)

theorem boot_of_le (cfg : Config) {image : List Cell} (h : image.length ≤ 32768) :
    boot cfg image = .next { State.reset with mem := Memory.ofCells 0 image, cfg := cfg } := if_pos h

/-! ## The obligations of the family -/

/-- Settles O45: the addresses of both memories are bounded below by 0. -/
theorem memoriesThatReadAlikeAreEqual : Obligations.MemoriesThatReadAlikeAreEqual :=
  fun _ _ => Memory.ext_of_wfFrom

/-- Settles O44: the loaded memory is that of the image's cells from address 0 on. -/
theorem loadPlacesTheImageUnmodified : Obligations.LoadPlacesTheImageUnmodified := by
  refine fun cfg image => ⟨fun hlen => ⟨_, boot_of_le cfg hlen, fun k => ?_⟩, fun hlen => if_neg (Nat.not_le.mpr hlen)⟩
  rw [Memory.read_ofCells, if_pos (Nat.zero_le k), Nat.sub_zero]

/-- Settles O43: every element by its definition; the registers are eight copies of 0. -/
theorem resetLeavesTheValuesOfTheResetTable : Obligations.ResetLeavesTheValuesOfTheResetTable :=
  ⟨fun _ => rfl, fun r => Vector.getElem_replicate r.isLt, rfl, rfl, rfl, rfl, rfl, rfl⟩

end Sys2Proof.Machine
end

section
/-! The invariant (spec/10_state.md): the reset and every loaded image meet it, and every step from a state that meets
it answers a next state that does. -/

namespace Sys2Proof.Machine

variable {s t : State} {i : Instr}

/-! ## The parts of the invariant -/

theorem admits_mono {cfg : Config} {n k : Nat} (h : cfg.admits n = true) (hk : k ≤ n) : cfg.admits k = true := by
  cases hc : cfg.stackCapacity with
  | none => rw [Config.admits, hc]
  | some c =>
    rw [Config.admits, hc, decide_eq_true_iff] at h ⊢
    exact hk.trans h

theorem admits_zero (cfg : Config) : cfg.admits 0 = true := by
  unfold Config.admits
  cases cfg.stackCapacity with
  | none => rfl
  | some c => exact decide_eq_true (Nat.zero_le c)

/-- R28: a stack that is not full has room for one more entry. -/
theorem admits_succ_of_not_full (h : s.stackFull = false) : s.cfg.admits (s.stack.length + 1) = true :=
  Bool.not_eq_false' .. ▸ h

/-- R34: what it means that an IN is pending. -/
theorem pendingIn_iff : s.pendingIn = true ↔ ∃ d rest, s.inDst = some d ∧ fetch s = .instr (.inp (.reg d)) rest := by
  unfold State.pendingIn
  constructor
  · intro h
    split at h
    · obtain rfl := eq_of_beq h
      exact ⟨_, _, ‹_›, ‹_›⟩
    · cases h
  · rintro ⟨d, rest, hd, hf⟩
    rw [hd, hf]
    exact beq_self_eq_true d

/-- R32: a termination that fits an execution state in which the engine has not ended is None. -/
theorem term_eq_none_of_fits {term : Term} {st : ExecState} (h : term.fits st = true) (hhalted : st ≠ .halted)
    (hfaulted : st ≠ .faulted) : term = .none := by
  cases term with
  | none => rfl
  | stopped r =>
    cases st with
    | halted => exact absurd rfl hhalted
    | ready | running | awaitingInput | faulted => cases h
  | raised e =>
    cases st with
    | faulted => exact absurd rfl hfaulted
    | ready | running | awaitingInput | halted => cases h

/-- R32, R33: until the engine ends there is no termination and no fault information. -/
theorem status_of_inv (hinv : s.Inv) (he : ¬ s.ended) : s.term = .none ∧ s.finfo = 0 := by
  obtain ⟨-, -, hterm, hfinfo, -, -⟩ := hinv
  obtain ⟨hhalted, hfaulted⟩ := not_or.mp he
  exact ⟨term_eq_none_of_fits hterm hhalted hfaulted, hfinfo hfaulted⟩

/-! ## Each part after an instruction -/

/-- R24: an instruction whose cells lie inside memory leaves a program counter of at most 32768. -/
theorem Effect.pc_le (h : Effect s i t) (hcur : s.cursor (arity i.mnemonic) ≤ 32768) : t.pc ≤ 32768 := by
  cases h with
  | fault | wait => exact (Nat.le_add_right ..).trans ((Nat.le_add_right ..).trans hcur)
  | halt | retHalt | result | pop | push | out | wmem | noop => exact hcur
  | call a v target => exact (toNat_word_le target).trans (by decide)
  | ret => exact (toNat_word_le _).trans (by decide)
  | jump hi htarget =>
    obtain rfl | hle := htarget
    · exact hcur
    · exact hle.trans (by decide)

/-- R32: the termination an instruction leaves fits the execution state it leaves. -/
theorem Effect.term_fits (h : Effect s i t) (hs : s.term = .none) : t.term.fits t.st = true := by
  cases h with
  | fault | halt | retHalt => rfl
  | wait | result | pop | push | call | ret | jump | out | wmem | noop => exact congrArg (Term.fits · _) hs

/-- R33: only a fault writes its information. -/
theorem Effect.finfo_eq (h : Effect s i t) (ht : t.st ≠ .faulted) : t.finfo = s.finfo := by
  cases h with
  | fault => exact absurd rfl ht
  | wait | halt | retHalt | result | pop | push | call | ret | jump | out | wmem | noop => rfl

/-- R28: a stack within the capacity stays within it. -/
theorem Effect.admits (h : Effect s i t) (hs : s.cfg.admits s.stack.length = true) :
    t.cfg.admits t.stack.length = true := by
  cases h with
  | push a v hroom => exact admits_succ_of_not_full hroom
  | call a v target hroom => exact admits_succ_of_not_full hroom
  | pop d hstack => exact admits_mono hs (hstack ▸ Nat.le_succ _)
  | ret hstack => exact admits_mono hs (hstack ▸ Nat.le_succ _)
  | fault | wait | halt | retHalt | result | jump | out | wmem | noop => exact hs

/-- R34: an instruction that waits leaves the pending IN at `pc`, with its destination latched. -/
theorem Effect.pendingIn {rest : List Cell} (h : Effect s i t) (hf : fetch s = .instr i rest)
    (ht : t.st = .awaitingInput) : t.pendingIn = true := by
  obtain ⟨d, rfl, rfl⟩ := h.eq_suspend ht
  have hsame : fetch (s.suspend d) = fetch s := fetch_congr rfl rfl
  exact pendingIn_iff.mpr ⟨d, rest, rfl, hsame.trans hf⟩

/-! ## The invariant along a step -/

/-- Every step keeps the canonical form of memory: a stored Word's address is inside memory (R57). -/
theorem mem_wf_of_step (hwf : s.mem.wf = true) (h : step s = .next t) : t.mem.wf = true := by
  obtain hmem | ⟨a, v, hmem⟩ := step_mem_cases h
  · rwa [hmem]
  · rw [hmem]
    exact State.wf_storeWord hwf a v

/-- The instruction at `pc` keeps the invariant. -/
theorem inv_of_exec {rest : List Cell} (hinv : s.Inv) (ha : s.active) (hf : fetch s = .instr i rest)
    (h : exec i s = .next t) : t.Inv := by
  obtain ⟨hterm, hfinfo⟩ := status_of_inv hinv (not_ended_of_active ha)
  obtain ⟨hwf, -, -, -, -, hstack⟩ := hinv
  have heff := effect_of_exec h
  have hcur : s.cursor (arity i.mnemonic) ≤ 32768 := by
    have := (cells_of_fetch hf).2
    rw [State.cursor_eq]
    omega
  exact ⟨mem_wf_of_step hwf ((step_of_fetch_instr ha hf).trans h), heff.pc_le hcur, heff.term_fits hterm,
    fun ht => (heff.finfo_eq ht).trans hfinfo, heff.pendingIn hf, heff.admits hstack⟩

/-- The supply of a pending IN keeps the invariant: the two cells of the IN lie inside memory. -/
theorem inv_of_resume (hinv : s.Inv) (hw : s.st = .awaitingInput) (supplies : List Word) (r : RegIdx) (c : Word) :
    (({ s with supplies := supplies } : State).resume r c).Inv := by
  obtain ⟨hterm, hfinfo⟩ := status_of_inv hinv (by simp [hw])
  obtain ⟨hwf, -, -, -, hpend, hstack⟩ := hinv
  obtain ⟨d, rest, -, hf⟩ := pendingIn_iff.mp (hpend hw)
  have hpc : s.pc + 1 ≤ 32767 := (cells_of_fetch hf).2
  exact ⟨hwf, Nat.succ_le_succ hpc, congrArg (Term.fits · .running) hterm, fun _ => hfinfo, nofun, hstack⟩

/-- Every image's reset state meets the invariant, whatever the build and the announced codes. -/
theorem inv_of_reset_with {m : Memory} (hm : m.wf = true) (cfg : Config) (supplies : List Word) :
    ({ State.reset with mem := m, cfg := cfg, supplies := supplies } : State).Inv :=
  ⟨hm, Nat.zero_le _, rfl, fun _ => rfl, nofun, admits_zero cfg⟩

theorem inv_of_step (hinv : s.Inv) (h : step s = .next t) : t.Inv := by
  obtain ⟨-, rfl⟩ | ⟨-, -, rfl⟩ | ⟨c, rest, r, hw, -, -, rfl⟩ | ⟨ha, -, rfl⟩ | ⟨ha, d, e, info, -, -, -, rfl⟩ |
    ⟨ha, i, rest, -, hf, hx⟩ := step_next_cases h
  · exact hinv
  · exact hinv
  · exact inv_of_resume hinv hw rest r c
  · obtain ⟨-, hfinfo⟩ := status_of_inv hinv (not_ended_of_active ha)
    obtain ⟨hwf, hpc, -, -, -, hstack⟩ := hinv
    exact ⟨hwf, hpc, rfl, fun _ => hfinfo, nofun, hstack⟩
  · obtain ⟨hwf, hpc, -, -, -, hstack⟩ := hinv
    exact ⟨hwf, hpc, rfl, fun hne => absurd rfl hne, nofun, hstack⟩
  · exact inv_of_exec hinv ha hf hx

/-- From a state that meets the invariant neither of the model's own faults can happen: `pc` is in range, and a waiting
engine has a latched destination. -/
theorem exists_step_of_inv (hinv : s.Inv) : ∃ t, step s = .next t := by
  obtain ⟨-, hpc, -, -, hpend, -⟩ := hinv
  have hactive : s.active → ∃ t, step s = .next t := by
    intro ha
    obtain ⟨-, hr⟩ | ⟨d, e, info, -, -, -, hr⟩ | ⟨i, rest, -, -, hr⟩ := runInstr_cases hpc <;>
      rw [step_active ha, hr]
    · exact ⟨_, rfl⟩
    · exact ⟨_, rfl⟩
    · obtain ⟨t, ht, -⟩ := exists_effect i s
      exact ⟨t, (stateOf_report ..).trans ht⟩
  cases hst : s.st with
  | ready => exact hactive (.inl hst)
  | running => exact hactive (.inr hst)
  | halted => exact ⟨s, step_ended (.inl hst)⟩
  | faulted => exact ⟨s, step_ended (.inr hst)⟩
  | awaitingInput =>
    obtain ⟨d, -, hd, -⟩ := pendingIn_iff.mp (hpend hst)
    cases hs : s.supplies with
    | nil => exact ⟨s, step_awaiting_nil hst hs⟩
    | cons c rest => exact ⟨_, step_of_pending hst hd hs⟩

/-! ## The obligations of the family -/

/-- Settles O39: a step that executes nothing keeps each part of the invariant, and so does the instruction at `pc`. -/
theorem invariantIsKeptByEveryStep : Obligations.InvariantIsKeptByEveryStep :=
  fun _ _ => inv_of_step

/-- Settles O41: the invariant rules out both of the model's own faults. -/
theorem stepNeverStopsUnderTheInvariant : Obligations.StepNeverStopsUnderTheInvariant :=
  fun _ => exists_step_of_inv

/-- Settles O38: reset is the load of the empty memory on the default build. -/
theorem invariantHoldsAtReset : Obligations.InvariantHoldsAtReset :=
  inv_of_reset_with State.reset_mem_wf Config.default []

/-- Settles O42: the loaded state meets the invariant, and from the invariant every step goes on and keeps it. -/
theorem loadedImagesRunSafelyWithTheInvariantForEver :
    Obligations.LoadedImagesRunSafelyWithTheInvariantForEver := by
  intro cfg image codes hlen
  have hload : (Memory.ofCells 0 image).wf = true := Memory.wfFrom_ofCells 0 image (by rwa [Nat.zero_add])
  refine ⟨_, boot_of_le cfg hlen, run_of_step (fun s hinv => ?_) (inv_of_reset_with hload cfg codes)⟩
  obtain ⟨t, ht⟩ := exists_step_of_inv hinv
  exact ⟨t, ht, inv_of_step hinv ht⟩

end Sys2Proof.Machine
end

section
/-! Subtraction by ADD (spec/44_alu.md). -/

namespace Sys2Proof.Machine

/-- Adding the complement of `k` modulo 32768 is undone by adding `k`. -/
theorem toNat_aluAdd_complement {k m : Word} (a : Word) (hm : m.toNat = (32768 - k.toNat) % 32768) :
    ((aluAdd a m).toNat + k.toNat) % 32768 = a.toNat := by
  have := a.isLt
  have := k.isLt
  rw [toNat_aluAdd, hm]
  omega

/-- Settles O60: the written Word is the one that adding `k` brings back to the operand; below it there is no wrap. -/
theorem addingTheComplementSubtracts : Obligations.AddingTheComplementSubtracts := by
  intro d a k m s hm
  have hback := toNat_aluAdd_complement (s.resolve a) hm
  refine ⟨_, exec_add_reg d a (.lit m) s, hback, fun hk => ?_⟩
  have := (aluAdd (s.resolve a) m).isLt
  rw [State.resolve_lit]
  omega

end Sys2Proof.Machine
end
